-- ==== Sys2Proof/Word.lean ====
section
/-! DEFINITION. The value types of the engine (00_scope.md R8): bytes, 32-bit words, the 64-bit counter, and the
eight-word values that `H`, `IV` and a digest are. Every value is unsigned. -/

namespace Sys2Proof

/-- An unsigned 8-bit value (R8). -/
abbrev Byte := BitVec 8

/-- An unsigned 32-bit value (R8). -/
abbrev Word := BitVec 32

/-- The width of `TOTAL_LEN`, of a payload length and of the bit-length field (R7). -/
abbrev Word64 := BitVec 64

/-- Eight words in state order: the running state `H[0..7]`, the ROM `IV[0..7]`, a digest value `D[0..7]` (R12). -/
structure Words8 where
  w0 : Word
  w1 : Word
  w2 : Word
  w3 : Word
  w4 : Word
  w5 : Word
  w6 : Word
  w7 : Word
  deriving DecidableEq, Repr

/-- The eight words in state order. -/
def Words8.toList (d : Words8) : List Word :=
  [d.w0, d.w1, d.w2, d.w3, d.w4, d.w5, d.w6, d.w7]

/-- Word `i`, for `i` in 0..7. -/
def Words8.get (d : Words8) (i : Fin 8) : Word :=
  match i with
  | 0 => d.w0
  | 1 => d.w1
  | 2 => d.w2
  | 3 => d.w3
  | 4 => d.w4
  | 5 => d.w5
  | 6 => d.w6
  | 7 => d.w7

end Sys2Proof
end

