-- ==== Sys2Proof/Config.lean ====
section
/-! DEFINITION. What an implementation fixes. The spec has ONE open parameter, `LEN_OVERFLOW` (00_scope.md R7,
92_eei_decisions.md D5); every other parameter of R7 has one value and is a numeral where it is used. No result of a
command is left open, so there is no free value. The constant ROMs are in Machine/Rom.lean. -/

namespace Sys2Proof

/-- The two values of the OPEN parameter `LEN_OVERFLOW`: what `TOTAL_LEN` does on an increment past 2^64 - 1. -/
inductive LenOverflow where
  /-- the counter is kept modulo 2^64 -/
  | wrap
  /-- the engine faults (60_exceptions.md R133) -/
  | fault
  deriving DecidableEq, Repr, Inhabited

/-- `LEN_OVERFLOW`. The spec leaves it OPEN (D5), so it has no body: no proof can see which value it has, and a claim
that is proved holds for both. Log entry 5. -/
opaque Config.lenOverflow : LenOverflow

end Sys2Proof
end

