-- ==== Sys2Proof/Syntax.lean ====
section
/-! DEFINITION. The commands (30_encoding.md R49): one constructor per row of spec/opcode_table.json. -/

namespace Sys2Proof

/-- The command set is exactly three commands (R49). -/
inductive Instr where
  /-- `NEW`, no operand (42_streaming.md R100). -/
  | new
  /-- `UPDATE(data)`, a finite byte sequence of any length (42_streaming.md R102). -/
  | update (data : List Byte)
  /-- `DIGEST`, no operand (43_finalize.md R105). -/
  | digest
  deriving DecidableEq, Repr

end Sys2Proof
end

