-- ==== Sys2Proof/WellFormed.lean ====
section
/-! DEFINITION. Which commands have an encoding. The engine takes a payload of any length (00_scope.md R7,
`MAX_UPDATE_LEN`); only the 64-bit length field of format C1 bounds one command (30_encoding.md R50, 92 D3). -/

namespace Sys2Proof

/-- Why a command has no encoding. -/
inductive IllFormed where
  /-- the payload has 2^64 bytes or more, so its length does not fit the length field (R50) -/
  | payloadTooLong
  deriving DecidableEq, Repr

/-- The first check that `i` fails, if any. -/
def Instr.illFormed (i : Instr) : Option IllFormed :=
  match i with
  | .new => none
  | .update data => if data.length < 2 ^ 64 then none else some .payloadTooLong
  | .digest => none

/-- `i` fails no check. -/
abbrev Instr.WellFormed (i : Instr) : Prop := i.illFormed = none

end Sys2Proof
end

