-- ==== Sys2Proof/Decode.lean ====
section
/-! DEFINITION. The serial encoding of commands (30_encoding.md R50 to R53): a decoder that is total on byte streams
and names what it refuses, and after it the encoder. -/

namespace Sys2Proof

/-! ## Big-endian 64-bit fields -/

/-- `byte1 || byte2 || ...`: the bytes read as one unsigned number, most significant first (R51). -/
def beNat (bytes : List Byte) : Nat :=
  bytes.foldl (fun n b => n * 256 + b.toNat) 0

/-- Byte `k` of the field is `v[63-8k : 56-8k]`, for `k` in 0..7 (R50; 20_memory.md R34). -/
def be64Byte (v : Word64) (k : Nat) : Byte :=
  v.extractLsb' (56 - 8 * k) 8

/-- The eight bytes of a 64-bit field, most significant first. -/
def be64Bytes (v : Word64) : List Byte :=
  (List.range 8).map (be64Byte v)

/-! ## The decoder -/

/-- What the decoder finds at the head of a byte stream. -/
inductive Decoded where
  /-- the stream is empty: no command waits -/
  | nothing
  /-- a whole command, and the bytes after it -/
  | command (i : Instr) (rest : List Byte)
  /-- `ReservedOpcode`: an opcode byte in 0x03..0xFF (R53) -/
  | reserved (op : Byte)
  /-- `IncompleteCommand`: the stream ends inside a command (R53) -/
  | incomplete
  deriving DecidableEq, Repr

/-- The opcode bytes of R52. -/
def opNew : Byte := 0x00#8
def opUpdate : Byte := 0x01#8
def opDigest : Byte := 0x02#8

/-- Format C1 after the opcode byte: 8 length bytes, then that many payload bytes, taken as they are (R50, R51). -/
def decodeUpdate (bytes : List Byte) : Decoded :=
  let len := bytes.take 8
  if len.length < 8 then .incomplete
  else
    let n := beNat len
    let body := bytes.drop 8
    if body.length < n then .incomplete
    else .command (.update (body.take n)) (body.drop n)

/-- Read one command from the head of a stream. The opcode byte fixes the length (R50). -/
def decode (bytes : List Byte) : Decoded :=
  match bytes with
  | [] => .nothing
  | op :: rest =>
    if op = opNew then .command .new rest
    else if op = opUpdate then decodeUpdate rest
    else if op = opDigest then .command .digest rest
    else .reserved op

/-! ## The encoder -/

/-- The opcode byte of a command (R52). -/
def opcode (i : Instr) : Byte :=
  match i with
  | .new => opNew
  | .update _ => opUpdate
  | .digest => opDigest

/-- The bytes after the opcode byte: none in format C0, length and payload in format C1 (R50). -/
def operandBytes (i : Instr) : List Byte :=
  match i with
  | .new => []
  | .update data => be64Bytes (BitVec.ofNat 64 data.length) ++ data
  | .digest => []

/-- The bytes of a well-formed command (R50, R52). -/
def encode (i : Instr) : List Byte :=
  opcode i :: operandBytes i

/-- How many bytes a command takes in the stream: 1 for C0, 9 + n for C1 (R50). -/
def encodedLength (i : Instr) : Nat :=
  match i with
  | .new => 1
  | .update data => 9 + data.length
  | .digest => 1

/-- A sequence of commands as one stream (R50). -/
def encodeAll (is : List Instr) : List Byte :=
  is.flatMap encode

/-! ## The opcode table's words -/

/-- The `k` bytes whose bits spec/opcode_table.json numbers from the least significant bit of the first byte. -/
def tableBytes (k w : Nat) : List Byte :=
  (List.range k).map fun j => BitVec.ofNat 8 (w / 256 ^ j)

/-- The bytes of the row's instruction whose first `nbits` bits are `w` and whose other bits are zero. For UPDATE the
length field is padded with zero bytes and then the payload it announces; NEW and DIGEST have one byte. -/
def tableWordBytes (nbits w : Nat) : List Byte :=
  let given := tableBytes (nbits / 8) w
  match given with
  | [] => []
  | op :: rest =>
    if op = opUpdate then
      let len := (rest ++ List.replicate 8 0x00#8).take 8
      op :: len ++ (rest.drop 8 ++ List.replicate (beNat len - (rest.drop 8).length) 0x00#8)
    else given

/-- The instruction the decoder reads from an instruction whose bits are `w` (none where it refuses). -/
def decodeTableWord (nbits w : Nat) : Option Instr :=
  match decode (tableWordBytes nbits w) with
  | .command i _ => some i
  | .nothing => none
  | .reserved _ => none
  | .incomplete => none

end Sys2Proof
end

