-- ==== Sys2Proof/Machine/State.lean ====
section
/-! DEFINITION. The state of the engine (10_state.md), plain data, and its value at power-on. -/

namespace Sys2Proof.Machine

/-- The accumulation buffer `BUF` (10_state.md R15), the engine's only memory (20_memory.md R30), as the cells that
do not hold 0x00, by rising address. -/
abbrev Memory := List Host.Cell

/-- What a byte nothing has written reads as: the reset contents (R22, R23). -/
def Memory.unwritten : Byte := 0x00#8

/-- The canonical form: addresses strictly rising and below 64, and no cell equal to what an unlisted address reads
as. Equal contents are equal lists. -/
abbrev Memory.wf (m : Memory) : Prop :=
  m.Pairwise (fun c d => c.1 < d.1) ∧ ∀ c ∈ m, c.1 < 64 ∧ c.2 ≠ Memory.unwritten

/-- Why the engine is faulted: the model's fault record (60_exceptions.md R131), which holds the reason and the value
of `FILLED` at the check. It is also the reason a step of a faulted engine stops with (R132). -/
inductive Fault where
  /-- `CompressNotFull`, code 1. COMPRESS raises it when `FILLED` is not 64 on entry (R131); no command does. Safe:
  the engine takes no further step. -/
  | compressNotFull (filled : BitVec 7)
  /-- `LengthOverflow`, code 2. UPDATE raises it when `TOTAL_LEN` would pass 2^64 - 1 and `LEN_OVERFLOW` is `fault`
  (R133). Safe: the engine takes no further step. -/
  | lengthOverflow (filled : BitVec 7)
  deriving DecidableEq, Repr

/-- Why a command has no meaning (60_exceptions.md R130). -/
inductive Refusal where
  /-- No instruction of this model: the dispatch would raise it for an instruction without a meaning. Safe. -/
  | notModelled (mnemonic : String)
  /-- `ReservedOpcode`: the decoder, on an opcode byte in 0x03..0xFF at that stream offset (R136). Safe. -/
  | reservedOpcode (op : Byte) (offset : Nat)
  /-- `IncompleteCommand`: the decoder, on a stream that ends inside the command at that offset (R136). Safe. -/
  | incompleteCommand (offset : Nat)
  /-- `ConcurrentInvocation`: the interface, on a command issued while one is in progress (R137). Safe. -/
  | concurrentInvocation
  deriving DecidableEq, Repr

/-- The engine status (10_state.md R27). The register is one bit; `faulted` carries the fault record beside it. -/
inductive Status where
  | operational
  | faulted (record : Fault)
  deriving DecidableEq, Repr

/-- A DIGEST response: 64 ASCII bytes (30_encoding.md R54). -/
abbrev Response := List Byte

/-- The machine. The first five fields are the engine's (10_state.md R12 to R15 and R27), `refusal` is the run's mark
of 60_exceptions.md R136, and the last three are the caller's side of the interface. -/
structure State where
  /-- `H[0..7]` (R12) -/
  h : Words8
  /-- `BUF[0..63]` (R15) -/
  buf : Memory
  /-- `FILLED`, a 7-bit register (R13) -/
  filled : BitVec 7
  /-- `TOTAL_LEN`, 64 bits (R14) -/
  totalLen : Word64
  /-- the engine status and the fault record (R27, R131) -/
  status : Status
  /-- the refusal mark (R136) -/
  refusal : Option Refusal
  /-- the bytes the caller has sent and the decoder has not taken (R50) -/
  stream : List Byte
  /-- the stream offset of the first byte of `stream` (R136) -/
  offset : Nat
  /-- the DIGEST responses returned so far, oldest first (R26, R147) -/
  responses : List Response
  deriving DecidableEq, Repr

/-- The machine right after power-on (10_state.md R22, R23; 70_reset_and_hazards.md R150): the initial state,
Operational, waiting for its first command, with no refusal mark and no response. -/
def State.reset : State where
  h := IV
  buf := []
  filled := 0
  totalLen := 0
  status := .operational
  refusal := none
  stream := []
  offset := 0
  responses := []

end Sys2Proof.Machine
end

