-- ==== Sys2Proof/Machine/Ops.lean ====
section
/-! DEFINITION. The named operations over the buffer and the registers that every command goes through: reading and
writing BUF, one update per register, the initial-state load, entering a fault, refusing, responding, power-on. -/

namespace Sys2Proof.Machine

/-! ## The buffer memory (20_memory.md R30, R31) -/

/-- `BUF[j]`, plays `MemRead(j, 1)` (00_scope.md R10). -/
def Memory.read : Memory → Nat → Byte
  | [], _ => Memory.unwritten
  | (x, b) :: m, j => if j = x then b else Memory.read m j

/-- `BUF[j] <- v`, plays `MemWrite(j, 1, v)`; keeps the canonical form. -/
def Memory.write : Memory → Nat → Byte → Memory
  | [], j, v => if v = Memory.unwritten then [] else [(j, v)]
  | (x, b) :: m, j, v =>
    if j < x then (if v = Memory.unwritten then (x, b) :: m else (j, v) :: (x, b) :: m)
    else if j = x then (if v = Memory.unwritten then m else (j, v) :: m)
    else (x, b) :: Memory.write m j v

/-- `BUF[j + i] <- bytes[i]` for each byte, in order (42_streaming.md R101). -/
def Memory.writeBytes : Memory → Nat → List Byte → Memory
  | m, _, [] => m
  | m, j, v :: bytes => Memory.writeBytes (Memory.write m j v) (j + 1) bytes

/-- `BUF[j .. j+n-1]`, in order. -/
def Memory.readBytes (m : Memory) (j n : Nat) : List Byte :=
  (List.range' j n).map (Memory.read m)

/-- `BUF[0..63]`, the 64 bytes COMPRESS reads at once (20_memory.md R38). -/
def Memory.block (m : Memory) : List Byte :=
  Memory.readBytes m 0 64

/-! ## One update per register -/

/-- `H <- v` (10_state.md R12). -/
def State.setH (s : State) (v : Words8) : State := { s with h := v }

/-- `FILLED <- n`, a 7-bit register (10_state.md R13). -/
def State.setFilled (s : State) (n : Nat) : State := { s with filled := BitVec.ofNat 7 n }

/-- `BUF[FILLED + i] <- bytes[i]`: the only buffer write (20_memory.md R31). -/
def State.store (s : State) (bytes : List Byte) : State :=
  { s with buf := Memory.writeBytes s.buf s.filled.toNat bytes }

/-- `TOTAL_LEN <- trunc_64(TOTAL_LEN + n)` (42_streaming.md R102). -/
def State.addLength (s : State) (n : Nat) : State :=
  { s with totalLen := BitVec.ofNat 64 (s.totalLen.toNat + n) }

/-- `InitialState()`: H, BUF, FILLED and TOTAL_LEN; the engine status is not part of this load (10_state.md R22). -/
def State.loadInitial (s : State) : State :=
  { s with h := IV, buf := [], filled := 0, totalLen := 0 }

/-- `respond(v)`: the command returns `v` to the caller (00_scope.md R10). -/
def State.respond (s : State) (v : Response) : State :=
  { s with responses := s.responses ++ [v] }

/-- The bytes of one command leave the stream; `rest` is what follows it. -/
def State.consume (s : State) (rest : List Byte) : State :=
  { s with stream := rest, offset := s.offset + (s.stream.length - rest.length) }

/-! ## Faults, refusals, power-on -/

/-- The numbers of 60_exceptions.md R130. They name the reasons; no register holds them. -/
def Fault.code (r : Fault) : Nat :=
  match r with
  | .compressNotFull _ => 1
  | .lengthOverflow _ => 2

/-- Taking a fault: the status becomes Faulted with its record, and nothing else changes (60_exceptions.md R131, R133,
R135). There is no handler and no way back (R132, R135). -/
def State.enterFault (s : State) (r : Fault) : State := { s with status := .faulted r }

/-- The next sub-step of a command; a command in progress stops at its first fault (60_exceptions.md R131, R134). -/
def State.andThen (s : State) (next : State → State) : State :=
  match s.status with
  | .operational => next s
  | .faulted _ => s

/-- A command performs only while the engine is Operational; a faulted engine has no step (60_exceptions.md R132). -/
def perform (body : State → State) (s : State) : Host.Outcome State Fault Refusal :=
  match s.status with
  | .operational => .next (body s)
  | .faulted r => .fault r

/-- Refusing a command: the mark is set, the engine state does not change, and there is no response
(60_exceptions.md R136). -/
def State.refuse (s : State) (r : Refusal) : State := { s with refusal := some r }

/-- Power-on or hardware reset: the initial state and `Operational` (70_reset_and_hazards.md R150, R151). It is not a
command and no step performs it; the caller's side and the run's refusal mark are not part of it. Log entry 19. -/
def State.powerOn (s : State) : State := { s.loadInitial with status := .operational }

/-- The next state of an outcome, if it is one. -/
def nextState? (o : Host.Outcome State Fault Refusal) : Option State :=
  match o with
  | .next s => some s
  | .fault _ => none
  | .refused _ => none

end Sys2Proof.Machine
end

