-- ==== Sys2Proof/Machine/Operands.lean ====
section
/-! DEFINITION. Where bytes and words meet (20_memory.md section 2): the big-endian words of a block, and the
big-endian length field. The third place, the digest, is Machine/Formatter.lean. The byte order is fixed (R36). -/

namespace Sys2Proof.Machine

/-- `BE32(blk, t)`: word `t` of a block, byte `blk[4t]` in bits 31..24 (R33). -/
def be32 (blk : List Byte) (t : Nat) : Word :=
  (blk.getD (4 * t) 0).zeroExtend 32 <<< 24 ||| (blk.getD (4 * t + 1) 0).zeroExtend 32 <<< 16 |||
    (blk.getD (4 * t + 2) 0).zeroExtend 32 <<< 8 ||| (blk.getD (4 * t + 3) 0).zeroExtend 32

/-- `L = trunc_64(8 * TOTAL_LEN)` (43_finalize.md R107). -/
def bitLength (totalLen : Word64) : Word64 :=
  BitVec.ofNat 64 (8 * totalLen.toNat)

/-- `LEN[0..7]`: the bit length as eight bytes, bits 63..56 first (R34). -/
def lengthField (totalLen : Word64) : List Byte :=
  be64Bytes (bitLength totalLen)

/-- `PAD_MARKER` (00_scope.md R7, 43_finalize.md R105 step 2). -/
def padMarker : Byte := 0x80#8

/-- `0x00 repeated n times`. -/
def zeroFill (n : Nat) : List Byte := List.replicate n 0x00#8

end Sys2Proof.Machine
end

