-- ==== Sys2Proof/Machine/Formatter.lean ====
section
/-! DEFINITION. The digest output formatter (44_formatter.md R120 to R123), its inverse, and the response bytes
(30_encoding.md R54). All are pure and read only their argument (R123). -/

namespace Sys2Proof.Machine

/-- The characters of "0123456789abcdef" (R120). -/
def hexAlphabet : List Char := "0123456789abcdef".toList

/-- `HEXDIGIT(v)`: the v-th character of the alphabet (R120). -/
def hexDigit (v : BitVec 4) : Char := hexAlphabet.getD v.toNat '0'

/-- Eight digits of a word, digit `k` from bits `31-4k : 28-4k` (R120). -/
def formatWord (w : Word) : List Char :=
  (List.range 8).map fun k => hexDigit (w.extractLsb' (28 - 4 * k) 4)

/-- `FORMAT(D)`: 64 characters, words in state order (R120). -/
def format (d : Words8) : List Char := d.toList.flatMap formatWord

/-- The characters as ASCII bytes (30_encoding.md R54). -/
def asciiBytes (text : List Char) : List Byte := text.map fun c => BitVec.ofNat 8 c.toNat

/-- What DIGEST returns for the digest value `d` (R54, R120). -/
def responseOf (d : Words8) : Response := asciiBytes (format d)

/-- `HEXVAL`, the inverse of HEXDIGIT (R121). -/
def hexVal (c : Char) : Nat := hexAlphabet.idxOf c

/-- `sum over k in 0..7 of HEXVAL(S[8i+k]) * 16^(7-k)` (R121). -/
def parseWord (text : List Char) (i : Nat) : Word :=
  BitVec.ofNat 32 ((List.range 8).map fun k => hexVal (text.getD (8 * i + k) '0') * 16 ^ (7 - k)).sum

/-- The eight words of a formatted digest (R121). -/
def parseDigest (text : List Char) : Words8 where
  w0 := parseWord text 0
  w1 := parseWord text 1
  w2 := parseWord text 2
  w3 := parseWord text 3
  w4 := parseWord text 4
  w5 := parseWord text 5
  w6 := parseWord text 6
  w7 := parseWord text 7

/-- The digest as 32 bytes: the words big-endian, word after word (R122; 20_memory.md R35). -/
def digestBytes (d : Words8) : List Byte :=
  d.toList.flatMap fun w => (List.range 4).map fun k => w.extractLsb' (24 - 8 * k) 8

end Sys2Proof.Machine
end

