-- ==== Sys2Proof/Machine/Schedule.lean ====
section
/-! DEFINITION. Word primitives and the message-schedule expander (40_schedule.md R56 to R63). All are pure. -/

namespace Sys2Proof.Machine

/-- `ROTR(x, n) = trunc_32((x >> n) | (x << (32 - n)))`, for `n` in 0..31 (R56). -/
def rotr (x : Word) (n : Nat) : Word := x >>> n ||| x <<< (32 - n)

/-- `SHR(x, n) = x >> n`, zeros entering above (R57). -/
def shr (x : Word) (n : Nat) : Word := x >>> n

/-- `x +32 y = trunc_32(x + y)`, the carry discarded (R58). -/
def add32 (x y : Word) : Word := BitVec.ofNat 32 (x.toNat + y.toNat)

/-- `σ0` (R59). -/
def smallSigma0 (x : Word) : Word := rotr x 7 ^^^ rotr x 18 ^^^ shr x 3

/-- `σ1` (R60). -/
def smallSigma1 (x : Word) : Word := rotr x 17 ^^^ rotr x 19 ^^^ shr x 10

/-- `WORDS(blk)`: the sixteen big-endian words of a block (R61). -/
def blockWords (blk : List Byte) : List Word := (List.range 16).map (be32 blk)

/-- `W[t]` for `t` in 16..63, from the words before it (R62). -/
def scheduleWord (w : List Word) (t : Nat) : Word :=
  add32 (add32 (add32 (smallSigma1 (w.getD (t - 2) 0)) (smallSigma0 (w.getD (t - 15) 0))) (w.getD (t - 16) 0))
    (w.getD (t - 7) 0)

/-- `W[0..t-1]` becomes `W[0..t]`. -/
def extendSchedule (w : List Word) (t : Nat) : List Word := w ++ [scheduleWord w t]

/-- `EXPAND(blk)`: the 64 schedule words, computed in increasing `t` (R62). -/
def expand (blk : List Byte) : List Word :=
  (List.range' 16 48).foldl extendSchedule (blockWords blk)

end Sys2Proof.Machine
end

