-- ==== Sys2Proof/Machine/Compression.lean ====
section
/-! DEFINITION. The 64-round compression mixer (41_compression.md R64 to R71). The micro-state of 10_state.md R16
(`W`, `a`..`h`, `t`) lives only here, as the locals of one compression. -/

namespace Sys2Proof.Machine

/-- `Σ0` (R64). -/
def bigSigma0 (a : Word) : Word := rotr a 2 ^^^ rotr a 13 ^^^ rotr a 22

/-- `Σ1` (R65). -/
def bigSigma1 (e : Word) : Word := rotr e 6 ^^^ rotr e 11 ^^^ rotr e 25

/-- `Ch`, choose (R66). -/
def ch (e f g : Word) : Word := (e &&& f) ^^^ (~~~e &&& g)

/-- `Maj`, majority (R67). -/
def maj (a b c : Word) : Word := (a &&& b) ^^^ (a &&& c) ^^^ (b &&& c)

/-- The working variables of one compression (10_state.md R16). -/
structure Work where
  a : Word
  b : Word
  c : Word
  d : Word
  e : Word
  f : Word
  g : Word
  h : Word
  deriving DecidableEq, Repr

/-- `T1`, from the round's constant and schedule word (R68). -/
def roundT1 (k w : Word) (v : Work) : Word :=
  add32 (add32 (add32 (add32 k w) (ch v.e v.f v.g)) v.h) (bigSigma1 v.e)

/-- `T2` (R68). -/
def roundT2 (v : Work) : Word := add32 (bigSigma0 v.a) (maj v.a v.b v.c)

/-- The next working variables: every new value is computed from the old ones (R68). -/
def mix (k w : Word) (v : Work) : Work where
  a := add32 (roundT1 k w v) (roundT2 v)
  b := v.a
  c := v.b
  d := v.c
  e := add32 v.d (roundT1 k w v)
  f := v.e
  g := v.f
  h := v.g

/-- `ROUND(t, (a, ..., h), W)` (R68). -/
def round (w : List Word) (v : Work) (t : Nat) : Work := mix (K t) (w.getD t 0) v

/-- The 64 rounds, `t` = 0, 1, ..., 63 (R69). -/
def rounds (w : List Word) (v : Work) : Work := (List.range 64).foldl (round w) v

/-- `(a, ..., h) <- (H[0], ..., H[7])` (R69). -/
def Work.ofWords (h : Words8) : Work := ⟨h.w0, h.w1, h.w2, h.w3, h.w4, h.w5, h.w6, h.w7⟩

/-- `H[i] <- H[i] +32 v_i`, word by word (R69). -/
def addWork (h : Words8) (v : Work) : Words8 where
  w0 := add32 h.w0 v.a
  w1 := add32 h.w1 v.b
  w2 := add32 h.w2 v.c
  w3 := add32 h.w3 v.d
  w4 := add32 h.w4 v.e
  w5 := add32 h.w5 v.f
  w6 := add32 h.w6 v.g
  w7 := add32 h.w7 v.h

/-- `CF(H, blk)`: COMPRESS as a pure function of the old H and the 64 bytes (R70). -/
def cf (h : Words8) (blk : List Byte) : Words8 :=
  addWork h (rounds (expand blk) (Work.ofWords h))

/-- `COMPRESS()`: writes H only; entered with FILLED not 64 it faults and writes nothing (R69, 60_exceptions.md R131). -/
def compress (s : State) : State :=
  if s.filled = 64 then s.setH (cf s.h (Memory.block s.buf))
  else s.enterFault (.compressNotFull s.filled)

end Sys2Proof.Machine
end

