-- ==== Sys2Proof/Machine/Flags.lean ====
section
/-! DEFINITION. The engine has no flags and no condition codes (10_state.md R28). What stands here are the conditions
the rules compute from the registers: the phase, the overflow test and the extra-block test. -/

namespace Sys2Proof.Machine

/-- The labels of the streaming state machine (10_state.md R17). -/
inductive Phase where
  | empty
  | accumulating
  /-- inside DIGEST only, never a rest state -/
  | finalized
  deriving DecidableEq, Repr

/-- `phase()`, a function of FILLED alone; R17 gives no phase to 64, which exists only inside a command. -/
def State.phase (s : State) : Option Phase :=
  if s.filled = 0 then some .empty
  else if s.filled.toNat < 64 then some .accumulating
  else none

/-- `TOTAL_LEN + n > 2^64 - 1` (42_streaming.md R102). -/
abbrev State.lengthOverflows (s : State) (n : Nat) : Prop :=
  2 ^ 64 - 1 < s.totalLen.toNat + n

/-- `FILLED + k >= 64`: the bytes still to buffer complete a block (42_streaming.md R101). -/
abbrev State.completesBlock (s : State) (k : Nat) : Prop :=
  64 ≤ s.filled.toNat + k

/-- `FILLED > 56`: after the marker, fewer than 8 bytes of room are left (43_finalize.md R105 step 3). -/
abbrev State.noRoomForLength (s : State) : Prop :=
  56 < s.filled.toNat

end Sys2Proof.Machine
end

