-- ==== Sys2Proof/Machine/Streaming.lean ====
section
/-! DEFINITION. The streaming state machine: NEW, the buffering path, UPDATE (42_streaming.md R100 to R104). -/

namespace Sys2Proof.Machine

/-- The block form of `BUFFER(data)` (R101). The first argument bounds the number of turns; `buffer` gives enough.
FILLED above 64 has no rule, and there `64 - FILLED` is 0 (log entry 7). -/
def bufferLoop : Nat → List Byte → State → State
  | 0, _, s => s
  | turns + 1, data, s =>
    if s.completesBlock data.length then
      let m := 64 - s.filled.toNat
      (compress ((s.store (data.take m)).setFilled 64)).andThen fun t =>
        bufferLoop turns (data.drop m) (t.setFilled 0)
    else
      (s.store data).setFilled (s.filled.toNat + data.length)

/-- `BUFFER(data)`, shared by UPDATE and DIGEST; does not touch TOTAL_LEN (R101). -/
def buffer (data : List Byte) (s : State) : State := bufferLoop (data.length + 2) data s

/-- `UPDATE(data)` under one value of `LEN_OVERFLOW` (R102): the overflow check comes before any change
(60_exceptions.md R133). -/
def absorb (policy : LenOverflow) (data : List Byte) (s : State) : State :=
  if s.lengthOverflows data.length ∧ policy = .fault then s.enterFault (.lengthOverflow s.filled)
  else buffer data (s.addLength data.length)

/-- `NEW` (R100): the initial-state load. It does not clear Faulted. -/
def execNew (s : State) : Host.Outcome State Fault Refusal := perform State.loadInitial s

/-- `UPDATE(data)` (R102), with the OPEN parameter the implementation's. -/
def execUpdate (data : List Byte) (s : State) : Host.Outcome State Fault Refusal :=
  perform (absorb Config.lenOverflow data) s

end Sys2Proof.Machine
end

