-- ==== Sys2Proof/Machine/Finalize.lean ====
section
/-! DEFINITION. The padding-and-finalize controller: DIGEST (43_finalize.md R105 to R112). -/

namespace Sys2Proof.Machine

/-- Step 2: the marker byte, via the buffering path (R105). -/
def padMark (s : State) : State := buffer [padMarker] s

/-- Step 3: with fewer than 8 bytes of room left, zero-fill to 64, which forces a COMPRESS (R105). -/
def padOverflowBlock (s : State) : State :=
  if s.noRoomForLength then buffer (zeroFill (64 - s.filled.toNat)) s else s

/-- Step 4, first part: zero-fill to offset 56 (R105). -/
def padToLength (s : State) : State := buffer (zeroFill (56 - s.filled.toNat)) s

/-- Steps 5 and 6 and the response: capture H, reload the initial state, format the captured value (R105, R106, R123). -/
def finish (s : State) : State := s.loadInitial.respond (responseOf s.h)

/-- `DIGEST()` (R105). The length is read before any padding byte is buffered. -/
def finalizeMessage (s : State) : State :=
  let len := lengthField s.totalLen
  (padMark s).andThen fun s2 =>
    (padOverflowBlock s2).andThen fun s3 =>
      (padToLength s3).andThen fun s4 =>
        (buffer len s4).andThen finish

/-- `DIGEST` (R105). -/
def execDigest (s : State) : Host.Outcome State Fault Refusal := perform finalizeMessage s

end Sys2Proof.Machine
end

