-- ==== Sys2Proof/Machine/Fetch.lean ====
section
/-! DEFINITION. What the engine finds at its command interface: the next whole command of the caller's stream, or why
there is none to perform. The order of the checks is 60_exceptions.md R134. -/

namespace Sys2Proof.Machine

/-- The interface before a step. -/
inductive Fetched where
  /-- the step ends here, without a command -/
  | settled (o : Host.Outcome State Fault Refusal)
  /-- perform this command in this state -/
  | issue (i : Instr) (s : State)

/-- No command waits: an operational engine idles and holds its state (R145); a faulted one has stopped (R135). -/
def idle (s : State) : Host.Outcome State Fault Refusal := perform (fun t => t) s

/-- Decode the head of the stream. After a refusal nothing of the stream is decoded (R136). -/
def fetch (s : State) : Fetched :=
  match s.refusal with
  | some r => .settled (.refused r)
  | none =>
    match decode s.stream with
    | .nothing => .settled (idle s)
    | .command i rest => .issue i (s.consume rest)
    | .reserved op => .settled (.next (s.refuse (.reservedOpcode op s.offset)))
    | .incomplete => .settled (.next (s.refuse (.incompleteCommand s.offset)))

/-- The caller presents these bytes as its stream, to an interface with no refusal behind it. Log entry 1. -/
def State.present (s : State) (bytes : List Byte) : State := { s with stream := bytes, refusal := none }

end Sys2Proof.Machine
end

