-- ==== Sys2Proof/Machine/Step.lean ====
section
/-! DEFINITION. One step: one command, performed whole (20_memory.md R39, R43). -/

namespace Sys2Proof.Machine

/-- Take the next command from the caller's stream and perform it. -/
def step (s : State) : Host.Outcome State Fault Refusal :=
  match fetch s with
  | .settled o => o
  | .issue i t => exec i t

/-- The caller presents the instruction whose first `nbits` bits are `w` (the others zero) as its stream. -/
def State.withFetchWord (s : State) (nbits w : Nat) : State :=
  s.present (tableWordBytes nbits w)

end Sys2Proof.Machine
end

