-- ==== Sys2Proof/Machine/Assembler.lean ====
section
/-! DEFINITION. The textual syntax of command sequences (30_encoding.md R55): lexing, parsing, the pseudo-instruction
HASH, and encoding. What R55 leaves open of the spelling is log entry 15. -/

namespace Sys2Proof.Machine

/-! ## Abstract form -/

/-- `item` (R55). -/
inductive Item where
  /-- `"0x" HEX HEX`: one byte -/
  | byte (b : Byte)
  /-- `"0x" HEX HEX "*" DECIMAL`: that byte repeated, 0 allowed -/
  | repeated (b : Byte) (n : Nat)
  /-- a string of printable ASCII characters -/
  | text (chars : List Char)
  deriving DecidableEq, Repr

/-- `command` (R55). -/
inductive SourceCommand where
  | new
  | digest
  | update (payload : List Item)
  /-- the pseudo-instruction -/
  | hash (payload : List Item)
  deriving DecidableEq, Repr

/-- The bytes an item stands for. -/
def Item.bytes (x : Item) : List Byte :=
  match x with
  | .byte b => [b]
  | .repeated b n => List.replicate n b
  | .text chars => chars.map fun c => BitVec.ofNat 8 c.toNat

/-- Items of one payload are concatenated in order. -/
def payloadBytes (items : List Item) : List Byte := items.flatMap Item.bytes

/-- `HASH payload` is NEW, then UPDATE payload, then DIGEST; every other command stands for itself. -/
def SourceCommand.expand (c : SourceCommand) : List Instr :=
  match c with
  | .new => [.new]
  | .digest => [.digest]
  | .update payload => [.update (payloadBytes payload)]
  | .hash payload => [.new, .update (payloadBytes payload), .digest]

/-- The commands of a program, in order. -/
def expandProgram (program : List SourceCommand) : List Instr := program.flatMap SourceCommand.expand

/-- The stream of a program: each command by R50. R55 does not say what becomes of a payload of 2^64 bytes or more, which
R50 cannot encode: here its length field holds the length modulo 2^64 and the whole payload follows, and the text is not
rejected (DESIGN CHOICE, log entry 24). -/
def assemble (program : List SourceCommand) : List Byte := encodeAll (expandProgram program)

/-! ## Lexing one line -/

/-- A lexeme of a line: a run of characters without spaces, or the inside of a string item. -/
inductive Lexeme where
  | word (chars : List Char)
  | quoted (chars : List Char)
  deriving DecidableEq, Repr

/-- Where the lexer stands: between lexemes, or inside one whose characters so far are held newest first. -/
inductive LexMode where
  | gap
  | inWord (acc : List Char)
  | inString (acc : List Char)
  deriving DecidableEq, Repr

/-- The double quote. -/
def isQuote (c : Char) : Bool := c.toNat == 0x22

/-- The start of a comment. -/
def isSemicolon (c : Char) : Bool := c.toNat == 0x3B

/-- Space, tab and carriage return separate lexemes. -/
def isBlank (c : Char) : Bool := c.toNat == 0x20 || c.toNat == 0x09 || c.toNat == 0x0D

/-- Printable ASCII other than the double quote and the backslash. -/
def isStringChar (c : Char) : Bool :=
  0x20 ≤ c.toNat && c.toNat ≤ 0x7E && c.toNat != 0x22 && c.toNat != 0x5C

/-- The lexemes of a line; none where a string is not closed or holds a character it may not. -/
def lexLine : LexMode → List Char → Option (List Lexeme)
  | .gap, [] => some []
  | .inWord acc, [] => some [.word acc.reverse]
  | .inString _, [] => none
  | .gap, c :: cs =>
    if isSemicolon c then some []
    else if isQuote c then lexLine (.inString []) cs
    else if isBlank c then lexLine .gap cs
    else lexLine (.inWord [c]) cs
  | .inWord acc, c :: cs =>
    if isSemicolon c then some [.word acc.reverse]
    else if isQuote c then (lexLine (.inString []) cs).map (.word acc.reverse :: ·)
    else if isBlank c then (lexLine .gap cs).map (.word acc.reverse :: ·)
    else lexLine (.inWord (c :: acc)) cs
  | .inString acc, c :: cs =>
    if isQuote c then (lexLine .gap cs).map (.quoted acc.reverse :: ·)
    else if isStringChar c then lexLine (.inString (c :: acc)) cs
    else none

/-! ## Parsing -/

/-- The value of a hexadecimal digit. -/
def hexDigitValue? (c : Char) : Option Nat :=
  let n := c.toNat
  if 0x30 ≤ n ∧ n ≤ 0x39 then some (n - 0x30)
  else if 0x61 ≤ n ∧ n ≤ 0x66 then some (n - 0x61 + 10)
  else if 0x41 ≤ n ∧ n ≤ 0x46 then some (n - 0x41 + 10)
  else none

/-- `HEX HEX` as a byte. -/
def hexByte? (hi lo : Char) : Option Byte :=
  match hexDigitValue? hi, hexDigitValue? lo with
  | some a, some b => some (BitVec.ofNat 8 (16 * a + b))
  | _, _ => none

/-- `DECIMAL`: one decimal digit or more. -/
def decimal? (chars : List Char) : Option Nat :=
  if chars.isEmpty then none
  else chars.foldl (fun acc c => acc.bind fun n =>
    if 0x30 ≤ c.toNat ∧ c.toNat ≤ 0x39 then some (10 * n + (c.toNat - 0x30)) else none) (some 0)

/-- One item of a payload. -/
def parseItem (x : Lexeme) : Option Item :=
  match x with
  | .quoted chars => some (.text chars)
  | .word ('0' :: 'x' :: hi :: lo :: []) => (hexByte? hi lo).map .byte
  | .word ('0' :: 'x' :: hi :: lo :: '*' :: count) =>
    (hexByte? hi lo).bind fun b => (decimal? count).map (.repeated b)
  | .word _ => none

/-- `item { item }`: at least one item. -/
def parsePayload (xs : List Lexeme) : Option (List Item) :=
  if xs.isEmpty then none else xs.mapM parseItem

/-- A line's lexemes as no command or one command. -/
def parseLine (xs : List Lexeme) : Option (List SourceCommand) :=
  match xs with
  | [] => some []
  | .quoted _ :: _ => none
  | .word mnemonic :: operands =>
    if mnemonic = "NEW".toList then (if operands.isEmpty then some [.new] else none)
    else if mnemonic = "DIGEST".toList then (if operands.isEmpty then some [.digest] else none)
    else if mnemonic = "UPDATE".toList then (parsePayload operands).map fun p => [.update p]
    else if mnemonic = "HASH".toList then (parsePayload operands).map fun p => [.hash p]
    else none

/-- The lines of a text; the first argument holds the characters of the current line, newest first. -/
def linesOf : List Char → List Char → List (List Char)
  | acc, [] => [acc.reverse]
  | acc, c :: cs => if c.toNat = 0x0A then acc.reverse :: linesOf [] cs else linesOf (c :: acc) cs

/-- `program := { line }` (R55); none where a line has no reading. -/
def parseProgram (text : List Char) : Option (List SourceCommand) :=
  ((linesOf [] text).mapM fun line => (lexLine .gap line).bind parseLine).map List.flatten

/-- A text to the stream of its commands. -/
def assembleText (text : List Char) : Option (List Byte) := (parseProgram text).map assemble

end Sys2Proof.Machine
end

