-- ==== Sys2Proof/Machine/Run.lean ====
section
/-! DEFINITION. Command sequences and what a caller observes of them (10_state.md R26, 60_exceptions.md R147). -/

namespace Sys2Proof.Machine

/-- A sequence of commands, each performed in the state the one before it left (20_memory.md R43). -/
def runCommands : List Instr → State → Host.Outcome State Fault Refusal
  | [], s => .next s
  | i :: rest, s =>
    match exec i s with
    | .next t => runCommands rest t
    | .fault r => .fault r
    | .refused r => .refused r

/-- The observation of a run (R147): the DIGEST responses in order, and whether a fault or a refusal occurred. -/
structure Observation where
  responses : List Response
  faulted : Bool
  refused : Bool
  deriving DecidableEq, Repr

/-- Whether a state is past a fault. -/
def State.isFaulted (s : State) : Bool := s.status != .operational

/-- What the caller has seen when the run stands in this state. -/
def State.observation (s : State) : Observation where
  responses := s.responses
  faulted := s.isFaulted
  refused := s.refusal.isSome

/-- What the caller observes of a command sequence: a faulted engine answers no further command (R132). -/
def observe : List Instr → State → Observation
  | [], s => s.observation
  | i :: rest, s =>
    match exec i s with
    | .next t => observe rest t
    | .fault _ => s.observation
    | .refused _ => s.observation

/-- What the caller observes of at most `n` steps over its stream. -/
def observeStream : Nat → State → Observation
  | 0, s => s.observation
  | n + 1, s =>
    match step s with
    | .next t => observeStream n t
    | .fault _ => s.observation
    | .refused _ => s.observation

/-- Two states that give the same observation after every sequence of later commands (R26). -/
def Indistinguishable (s t : State) : Prop :=
  ∀ commands : List Instr, observe commands s = observe commands t

end Sys2Proof.Machine
end

