-- ==== Sys2Proof/Machine/Interface.lean ====
section
/-! DEFINITION. The interface around one engine: several callers of one engine, where a second command issued while one
is in progress is refused (60_exceptions.md R137), and several engines side by side (20_memory.md R48). Neither is state
of the engine; both are built over decode, exec and step. -/

namespace Sys2Proof.Machine

/-- One caller's side: the bytes it has sent and the decoder has not taken, and the stream offset of the first of them
(30_encoding.md R50, 60_exceptions.md R136). In a session the caller's side is here, and the engine's own `stream` and
`offset` are not used. Log entry 10. -/
structure Port where
  stream : List Byte
  offset : Nat
  deriving DecidableEq, Repr

/-- The bytes of one command leave the port; `rest` is what follows it. -/
def Port.consume (p : Port) (rest : List Byte) : Port where
  stream := rest
  offset := p.offset + (p.stream.length - rest.length)

/-- A command a caller has issued and the engine has not completed. -/
structure Issued where
  caller : Nat
  command : Instr
  deriving DecidableEq, Repr

/-- One engine, its callers' ports, and the command in progress at its interface. -/
structure Session where
  engine : State
  ports : List Port
  inProgress : Option Issued
  deriving DecidableEq, Repr

/-- What happens at the interface of one engine: a caller issues the next command of its stream, or the command in
progress completes. -/
inductive Event where
  | issue (caller : Nat)
  | complete
  deriving DecidableEq, Repr

/-- The refusal mark of the run (R136); nothing else changes. -/
def Session.refuse (x : Session) (r : Refusal) : Session := { x with engine := x.engine.refuse r }

/-- A caller issues. The first two checks of R134, in its order: the decoder's refusals, whether or not a command is in
progress and whatever the engine status; then a second command before the first completes (R137). A caller that does
not exist, or that has nothing to send, issues no command. The engine status is not looked at here, so a command issued
to a Faulted engine is in progress until its completion answers the fault, and a command issued behind it is refused as
concurrent (DESIGN CHOICE, log entry 25). -/
def Session.issue (x : Session) (caller : Nat) : Session :=
  match x.ports[caller]? with
  | none => x
  | some p =>
    match decode p.stream with
    | .nothing => x
    | .reserved op => x.refuse (.reservedOpcode op p.offset)
    | .incomplete => x.refuse (.incompleteCommand p.offset)
    | .command i rest =>
      match x.inProgress with
      | some _ => x.refuse .concurrentInvocation
      | none => { x with ports := x.ports.set caller (p.consume rest), inProgress := some ⟨caller, i⟩ }

/-- The command in progress takes effect whole (20_memory.md R39): the remaining checks of R134 are those of exec. With
none in progress nothing completes. -/
def Session.complete (x : Session) : Host.Outcome Session Fault Refusal :=
  match x.inProgress with
  | none => .next x
  | some j =>
    match exec j.command x.engine with
    | .next t => .next { x with engine := t, inProgress := none }
    | .fault r => .fault r
    | .refused r => .refused r

/-- One event. Behind a concurrent invocation the schedule is refused (R137), and behind a decoder refusal nothing more of
that caller's stream is decoded (R136; 30_encoding.md R53). Those rules do not speak of the other callers' streams: here
a decoder refusal stops every caller of the engine (DESIGN CHOICE, log entry 26). -/
def Session.accept (x : Session) (e : Event) : Host.Outcome Session Fault Refusal :=
  match x.engine.refusal with
  | some r => .refused r
  | none =>
    match e with
    | .issue c => .next (x.issue c)
    | .complete => x.complete

/-- Any number of engines, each with its own state (R48). -/
abbrev Bank := List State

/-- A step of engine `k`; an engine whose step is no next state stands still (R143). -/
def Bank.stepAt (b : Bank) (k : Nat) : Bank :=
  match b[k]? with
  | some s => (nextState? (step s)).elim b (b.set k)
  | none => b

end Sys2Proof.Machine
end

