-- ==== Sys2Proof/Machine/Reference.lean ====
section
/-! DEFINITION. What claims compare the engine with: the digest as a function of the message alone (43_finalize.md
R108, R111), the byte form of the buffering path (42_streaming.md R101), and the compression with a 16-word window in
place of the whole schedule (40_schedule.md R63, 41_compression.md R71). -/

namespace Sys2Proof.Machine

/-- The whole 64-byte blocks at the front of a byte sequence, in order (42_streaming.md R104). -/
def blocksOf (bytes : List Byte) : List (List Byte) :=
  (List.range (bytes.length / 64)).map fun k =>
    (bytes.drop (64 * k)).take 64

/-- The bytes after the last whole block. -/
def leftover (bytes : List Byte) : List Byte :=
  bytes.drop (64 * (bytes.length / 64))

/-- `CF(... CF(CF(h, B1), B2) ..., Bm)` (R111). -/
def hashBlocks (h : Words8) (blocks : List (List Byte)) : Words8 := blocks.foldl cf h

/-- `z = (55 - l) mod 64` (R108). -/
def zeroCount (l : Nat) : Nat := (55 + (64 - l % 64)) % 64

/-- `0x80 || 0x00 repeated z times || BE64(L)` for a message of `l` bytes (R108). -/
def padding (l : Nat) : List Byte :=
  [padMarker] ++ zeroFill (zeroCount l) ++ lengthField (BitVec.ofNat 64 l)

/-- `P = M || 0x80 || 0x00 repeated z times || BE64(L)` (R108). -/
def paddedMessage (message : List Byte) : List Byte := message ++ padding message.length

/-- The digest of a message (R111). -/
def messageDigest (message : List Byte) : Words8 := hashBlocks IV (blocksOf (paddedMessage message))

/-- `BUF[0..FILLED-1]`, the input not yet compressed (10_state.md R13). -/
def State.pending (s : State) : List Byte := Memory.readBytes s.buf 0 s.filled.toNat

/-! ## The byte form of the buffering path -/

/-- The buffer address of the k-th byte that enters a buffer with `filled` bytes (R101, byte form). -/
def bufferAddress (filled k : Nat) : Nat := (filled + k) % 64

/-- One byte: write it at FILLED, count it, and compress when FILLED reaches 64 (R101, byte form). -/
def bufferByte (s : State) (v : Byte) : State :=
  let t := (s.store [v]).setFilled (s.filled.toNat + 1)
  if t.filled = 64 then (compress t).andThen fun u => u.setFilled 0 else t

/-- The byte form of `BUFFER(data)` (R101). -/
def bufferBytes (data : List Byte) (s : State) : State := data.foldl bufferByte s

/-! ## The window realisation of the compression -/

/-- `W[t]` in round `t`, from the window that holds `W[t mod 16]` (R63). -/
def windowWord (window : List Word) (t : Nat) : Word :=
  if t < 16 then window.getD t 0
  else
    add32 (add32 (add32 (smallSigma1 (window.getD ((t - 2) % 16) 0)) (smallSigma0 (window.getD ((t - 15) % 16) 0)))
      (window.getD ((t - 16) % 16) 0)) (window.getD ((t - 7) % 16) 0)

/-- One round of a realisation that computes `W[t]` in the round that uses it (R71). -/
def windowRound (x : Work × List Word) (t : Nat) : Work × List Word :=
  (mix (K t) (windowWord x.2 t) x.1, x.2.set (t % 16) (windowWord x.2 t))

/-- `CF(H, blk)` by that realisation (R71). -/
def windowCf (h : Words8) (blk : List Byte) : Words8 :=
  addWork h ((List.range 64).foldl windowRound (Work.ofWords h, blockWords blk)).1

end Sys2Proof.Machine
end

