-- ==== Sys2Proof/Safety.lean ====
section
/-! DEFINITION. What counts as a safe run, and the invariants of the engine. -/

namespace Sys2Proof.Machine

/-- No fault and no refusal so far: the run counts as clean (60_exceptions.md R136, R147). -/
def State.Clean (s : State) : Prop := s.status = .operational ∧ s.refusal = none

/-- `0 <= FILLED <= 63` and `FILLED = TOTAL_LEN mod 64` (10_state.md R24). -/
def State.FillInv (s : State) : Prop :=
  s.filled.toNat ≤ 63 ∧ s.filled.toNat = s.totalLen.toNat % 64

/-- BUF keeps its canonical form, so equal contents are equal data. -/
def State.BufInv (s : State) : Prop := Memory.wf s.buf

/-- The characters a response may hold, as ASCII bytes (30_encoding.md R54). -/
def isHexByte (b : Byte) : Bool :=
  (0x30 ≤ b.toNat && b.toNat ≤ 0x39) || (0x61 ≤ b.toNat && b.toNat ≤ 0x66)

/-- Every response is 64 lowercase hex digits (R54, 44_formatter.md R120). -/
def State.ResponseInv (s : State) : Prop :=
  ∀ r ∈ s.responses, r.length = 64 ∧ ∀ b ∈ r, isHexByte b = true

/-- The fault CompressNotFull has not been taken (60_exceptions.md R131: no command sequence reaches it). -/
def State.NoCompressFault (s : State) : Prop :=
  ∀ n, s.status ≠ .faulted (.compressNotFull n)

/-- Everything that holds between commands. -/
structure State.Inv (s : State) : Prop where
  fill : s.FillInv
  buf : s.BufInv
  responses : s.ResponseInv
  noCompressFault : s.NoCompressFault

/-- `H = IV`, `BUF` all zero, `FILLED = 0`, `TOTAL_LEN = 0` (10_state.md R22). -/
structure State.Initial (s : State) : Prop where
  h : s.h = IV
  buf : ∀ j < 64, Memory.read s.buf j = 0x00#8
  filled : s.filled = 0
  totalLen : s.totalLen = 0

/-- The engine stands where absorbing exactly this message since the last reset leaves it (42_streaming.md R104). -/
structure State.Absorbed (message : List Byte) (s : State) : Prop where
  h : s.h = hashBlocks IV (blocksOf message)
  pending : s.pending = leftover message
  filled : s.filled.toNat = message.length % 64
  totalLen : s.totalLen.toNat = message.length % 2 ^ 64
  buf : s.BufInv

/-- The engine registers agree: H, BUF, FILLED, TOTAL_LEN and the status. -/
structure SameEngine (s t : State) : Prop where
  h : s.h = t.h
  buf : s.buf = t.buf
  filled : s.filled = t.filled
  totalLen : s.totalLen = t.totalLen
  status : s.status = t.status

/-- The states agree in everything but the buffer bytes at and above FILLED. -/
structure SameButStaleBytes (s t : State) : Prop where
  rest : { s with buf := t.buf } = t
  live : ∀ j < s.filled.toNat, Memory.read s.buf j = Memory.read t.buf j

end Sys2Proof.Machine
end

