-- ==== Sys2Proof/Certificates/Slice0/Obligations.lean ====
section
/-! DEFINITION. The statements for the provers, one `def Obligations.<Name> : Prop` each. A docstring names the rules a
statement formalises; where it rests on a choice of the model it says so. -/

open Sys2Proof Sys2Proof.Machine

/-! ## Reset and the three sources of the initial state -/

/-- 70_reset_and_hazards.md R150: power-on, from whatever state, gives the initial state, Operational, phase Empty; and
`State.reset` is such a state, in which the engine waits for its first command. -/
def Obligations.PowerOnGivesInitialOperational : Prop :=
  (State.reset.Initial ∧ State.reset.status = .operational ∧ State.reset.phase = some .empty ∧
    step State.reset = .next State.reset) ∧
    ∀ s : State, s.powerOn.Initial ∧ s.powerOn.status = .operational ∧ s.powerOn.phase = some .empty

/-- 10_state.md R22 and 43_finalize.md R106: power-on, NEW and DIGEST end in the initial state, whatever the state was,
and the last two leave the engine status; `IV` has the values of R20. -/
def Obligations.NewAndDigestEndInInitialState : Prop :=
  IV.toList = [0x6a09e667, 0xbb67ae85, 0x3c6ef372, 0xa54ff53a, 0x510e527f, 0x9b05688c, 0x1f83d9ab, 0x5be0cd19] ∧
    (∀ s : State, s.powerOn.Initial) ∧
    ∀ s : State, s.status = .operational →
      (∃ t, exec .new s = .next t ∧ t.Initial ∧ t.phase = some .empty ∧ t.status = s.status) ∧
      (∃ t, exec .digest s = .next t ∧ t.Initial ∧ t.phase = some .empty ∧ t.status = s.status)

/-! ## NEW -/

/-- 42_streaming.md R100: NEW loads the initial state and changes nothing else, in particular returns no response; it
discards a message in progress; on an engine already in the initial state it changes nothing; it does not clear
Faulted. -/
def Obligations.NewLoadsInitialStateOnly : Prop :=
  (∀ s : State, s.status = .operational →
    exec .new s = .next { s with h := IV, buf := [], filled := 0, totalLen := 0 } ∧
      (∀ a, Memory.read ([] : Memory) a = 0x00#8)) ∧
  (∀ s : State, s.status = .operational → s.BufInv → s.Initial → exec .new s = .next s) ∧
  (∀ (s : State) (r : Fault), s.status = .faulted r → exec .new s = .fault r)

/-! ## UPDATE -/

/-- 42_streaming.md R102 and R104: what UPDATE leaves in every register, the blocks it compresses and their number,
and that it changes nothing else. Under `LEN_OVERFLOW = fault` the counter must not pass 2^64 - 1. -/
def Obligations.UpdateAbsorbsItsBytes : Prop :=
  ∀ (data : List Byte) (s : State), s.status = .operational → s.filled.toNat ≤ 63 → s.BufInv →
    (Config.lenOverflow = .fault → s.totalLen.toNat + data.length ≤ 2 ^ 64 - 1) →
    ∃ t, exec (.update data) s = .next t ∧
      t.totalLen.toNat = (s.totalLen.toNat + data.length) % 2 ^ 64 ∧
      t.filled.toNat = (s.filled.toNat + data.length) % 64 ∧
      t.h = hashBlocks s.h (blocksOf (s.pending ++ data)) ∧
      (blocksOf (s.pending ++ data)).length = (s.filled.toNat + data.length) / 64 ∧
      t.pending = leftover (s.pending ++ data) ∧
      t.status = .operational ∧ t.refusal = s.refusal ∧ t.stream = s.stream ∧ t.offset = s.offset ∧
      t.responses = s.responses

/-- 60_exceptions.md R133: without an overflow an UPDATE takes no fault; under `fault`, an UPDATE that would pass 2^64 - 1 changes only the status, to Faulted with
the reason LengthOverflow (code 2); under `wrap` it absorbs, and the counter wraps. The record's FILLED is the model's
reading of R133's "as in rule R131" (log entry 16). -/
def Obligations.LengthOverflowIsCheckedFirst : Prop :=
  (∀ (policy : LenOverflow) (data : List Byte) (s : State), s.status = .operational →
    s.totalLen.toNat + data.length ≤ 2 ^ 64 - 1 → (absorb policy data s).status = .operational) ∧
  ∀ (data : List Byte) (s : State), s.status = .operational → 2 ^ 64 - 1 < s.totalLen.toNat + data.length →
    absorb .fault data s = { s with status := .faulted (.lengthOverflow s.filled) } ∧
    (Fault.lengthOverflow s.filled).code = 2 ∧
    absorb .wrap data s = buffer data { s with totalLen := BitVec.ofNat 64 (s.totalLen.toNat + data.length) } ∧
    (absorb .wrap data s).totalLen.toNat = (s.totalLen.toNat + data.length) % 2 ^ 64 ∧
    (absorb .wrap data s).status = .operational ∧
    exec (.update data) s = .next (absorb Config.lenOverflow data s)

/-- 20_memory.md R31, R32 and 42_streaming.md R101: the k-th payload byte goes to the address `bufferAddress FILLED k`,
the last one that goes to an address is the one found there, and every other byte of BUF is unchanged. -/
def Obligations.UpdateStoresOnlyItsBytes : Prop :=
  ∀ (data : List Byte) (s : State), s.status = .operational → s.filled.toNat ≤ 63 → s.BufInv →
    (Config.lenOverflow = .fault → s.totalLen.toNat + data.length ≤ 2 ^ 64 - 1) →
    ∃ t, exec (.update data) s = .next t ∧
      (∀ k < data.length, data.length ≤ k + 64 →
        Memory.read t.buf (bufferAddress s.filled.toNat k) = data.getD k 0) ∧
      (∀ a, (∀ k < data.length, bufferAddress s.filled.toNat k ≠ a) →
        Memory.read t.buf a = Memory.read s.buf a)

/-- 10_state.md R18: the phase and FILLED after each command, by how full the buffer was. -/
def Obligations.PhaseFollowsEveryCommand : Prop :=
  (∀ s : State, s.status = .operational → ∃ t, exec .new s = .next t ∧ t.phase = some .empty) ∧
  (∀ s : State, s.status = .operational → s.filled.toNat ≤ 63 → exec (.update []) s = .next s) ∧
  (∀ (data : List Byte) (s : State), s.status = .operational → s.filled.toNat ≤ 63 → s.BufInv →
    (Config.lenOverflow = .fault → s.totalLen.toNat + data.length ≤ 2 ^ 64 - 1) → data ≠ [] →
    ∃ t, exec (.update data) s = .next t ∧
      (s.filled.toNat + data.length < 64 →
        t.phase = some .accumulating ∧ t.filled.toNat = s.filled.toNat + data.length) ∧
      (64 ≤ s.filled.toNat + data.length → (s.filled.toNat + data.length) % 64 = 0 → t.phase = some .empty) ∧
      (64 ≤ s.filled.toNat + data.length → (s.filled.toNat + data.length) % 64 ≠ 0 →
        t.phase = some .accumulating)) ∧
  (∀ s : State, s.status = .operational → ∃ t, exec .digest s = .next t ∧ t.phase = some .empty) ∧
  (∀ (i : Instr) (s : State) (r : Fault), s.status = .faulted r → exec i s = .fault r)

/-- 42_streaming.md R101: the block form of BUFFER, which the model runs, and the byte form leave the same state. -/
def Obligations.BlockFormEqualsByteForm : Prop :=
  ∀ (data : List Byte) (s : State), s.status = .operational → s.filled.toNat ≤ 63 → s.BufInv →
    buffer data s = bufferBytes data s

/-- 42_streaming.md R103: two UPDATEs leave the state one UPDATE of the concatenation leaves, and any partition of a
payload followed by DIGEST gives what the whole payload followed by DIGEST gives. Under `LEN_OVERFLOW = fault`, where
no fault occurs. -/
def Obligations.ChunkingDoesNotMatter : Prop :=
  (∀ (x y : List Byte) (s : State), s.status = .operational → s.filled.toNat ≤ 63 → s.BufInv →
    (Config.lenOverflow = .fault → s.totalLen.toNat + x.length + y.length ≤ 2 ^ 64 - 1) →
    ∃ t, runCommands [.update x, .update y] s = .next t ∧ exec (.update (x ++ y)) s = .next t) ∧
  (∀ (chunks : List (List Byte)) (s : State), s.status = .operational → s.filled.toNat ≤ 63 → s.BufInv →
    (Config.lenOverflow = .fault → s.totalLen.toNat + chunks.flatten.length ≤ 2 ^ 64 - 1) →
    ∃ t, runCommands (chunks.map Instr.update ++ [.digest]) s = .next t ∧
      runCommands [.update chunks.flatten, .digest] s = .next t)

/-- 10_state.md R25: H changes only at a compression, which an UPDATE reaches when its bytes complete a block, and at
the initial-state load of NEW and DIGEST. -/
def Obligations.RunningStateChangesOnlyAtCompressionOrLoad : Prop :=
  ∀ (i : Instr) (s t : State), s.filled.toNat ≤ 63 → s.BufInv → exec i s = .next t → t.h ≠ s.h →
    (i = .new ∧ t.h = IV) ∨ (i = .digest ∧ t.h = IV) ∨
      ∃ data, i = .update data ∧ 64 ≤ s.filled.toNat + data.length ∧
        t.h = hashBlocks s.h (blocksOf (s.pending ++ data))

/-! ## DIGEST -/

/-- 43_finalize.md R105, R109 and R110: the one or two blocks DIGEST compresses, what it responds, and the whole state
it leaves. -/
def Obligations.DigestCompressesFinalBlocks : Prop :=
  ∀ s : State, s.status = .operational → s.FillInv → s.BufInv →
    ∃ blocks : List (List Byte),
      blocks = (if s.totalLen.toNat % 64 ≤ 55 then
          [s.pending ++ [0x80#8] ++ List.replicate (55 - s.totalLen.toNat % 64) 0x00#8 ++ lengthField s.totalLen]
        else
          [s.pending ++ [0x80#8] ++ List.replicate (63 - s.totalLen.toNat % 64) 0x00#8,
            List.replicate 56 0x00#8 ++ lengthField s.totalLen]) ∧
      (∀ b ∈ blocks, b.length = 64) ∧
      blocks.length = (if s.totalLen.toNat % 64 ≤ 55 then 1 else 2) ∧
      exec .digest s = .next { s with
        h := IV, buf := [], filled := 0, totalLen := 0,
        responses := s.responses ++ [responseOf (hashBlocks s.h blocks)] }

/-- 43_finalize.md R108: the padded message is the message, the marker, z zero bytes and the length; its length is a
multiple of 64, and z is the least count that makes it so. -/
def Obligations.PaddedMessageShape : Prop :=
  ∀ message : List Byte, ∃ z ≤ 63,
    paddedMessage message =
      message ++ [0x80#8] ++ List.replicate z 0x00#8 ++ be64Bytes (BitVec.ofNat 64 (8 * message.length)) ∧
    (message.length + z) % 64 = 55 ∧
    (paddedMessage message).length = message.length + 1 + z + 8 ∧
    (paddedMessage message).length % 64 = 0

/-- 20_memory.md R34 and 43_finalize.md R107: the length field has eight bytes, byte k is L[63-8k : 56-8k], and read
big-endian it is 8 * TOTAL_LEN modulo 2^64, the exact bit length below 2^61 bytes. -/
def Obligations.LengthFieldIsBigEndianBitLength : Prop :=
  ∀ totalLen : Word64,
    (lengthField totalLen).length = 8 ∧
    (∀ k < 8, ((lengthField totalLen).getD k 0).toNat =
      (8 * totalLen.toNat % 2 ^ 64) / 2 ^ (56 - 8 * k) % 256) ∧
    beNat (lengthField totalLen) = 8 * totalLen.toNat % 2 ^ 64 ∧
    (totalLen.toNat < 2 ^ 61 → beNat (lengthField totalLen) = 8 * totalLen.toNat)

/-- 43_finalize.md R111: after NEW, any split of a message into UPDATEs, then DIGEST, responds the digest of the
message as one function of its padded blocks, and leaves the initial state. -/
def Obligations.EngineComputesMessageDigest : Prop :=
  ∀ (chunks : List (List Byte)) (s : State), s.status = .operational →
    (Config.lenOverflow = .fault → chunks.flatten.length ≤ 2 ^ 64 - 1) →
    runCommands ([.new] ++ chunks.map Instr.update ++ [.digest]) s = .next { s with
      h := IV, buf := [], filled := 0, totalLen := 0,
      responses := s.responses ++ [responseOf (messageDigest chunks.flatten)] }

/-- 42_streaming.md R104 and 43_finalize.md R111: the streaming engine simulates the abstract machine whose state is
the message since the last reset. Block k (from 0) of a message is its bytes at offsets 64k .. 64k+63. -/
def Obligations.EngineSimulatesMessageMachine : Prop :=
  (∀ message : List Byte, (blocksOf message).length = message.length / 64 ∧
    ∀ k < message.length / 64, ∀ j < 64,
      ((blocksOf message).getD k []).getD j 0 = message.getD (64 * k + j) 0) ∧
  (∀ s : State, s.status = .operational → ∃ t, exec .new s = .next t ∧ t.Absorbed []) ∧
  (∀ (message data : List Byte) (s : State), s.status = .operational → s.Absorbed message →
    (Config.lenOverflow = .fault → s.totalLen.toNat + data.length ≤ 2 ^ 64 - 1) →
    ∃ t, exec (.update data) s = .next t ∧ t.Absorbed (message ++ data) ∧ t.responses = s.responses) ∧
  (∀ (message : List Byte) (s : State), s.status = .operational → s.Absorbed message →
    ∃ t, exec .digest s = .next t ∧ t.Absorbed [] ∧
      t.responses = s.responses ++ [responseOf (messageDigest message)])

/-- 43_finalize.md R112: a DIGEST right after a DIGEST, with no UPDATE between, responds the digest of the empty
message, with no residue of the first. -/
def Obligations.SecondDigestIsOfEmptyMessage : Prop :=
  ∀ s : State, s.status = .operational → ∃ t r, runCommands [.digest, .digest] s = .next t ∧ t.Initial ∧
    t.responses = s.responses ++
      [r, asciiBytes "e3b0c44298fc1c149afbf4c8996fb92427ae41e4649b934ca495991b7852b855".toList]

/-- 20_memory.md R40: NEW is idempotent, an UPDATE repeated appends the payload again, an empty UPDATE changes nothing,
and the second of two DIGESTs is the digest of the empty message. -/
def Obligations.IdempotencyOfCommands : Prop :=
  (∀ s : State, s.status = .operational → runCommands [.new, .new] s = exec .new s) ∧
  (∀ (data : List Byte) (s : State), s.status = .operational → s.filled.toNat ≤ 63 → s.BufInv →
    (Config.lenOverflow = .fault → s.totalLen.toNat + data.length + data.length ≤ 2 ^ 64 - 1) →
    ∃ t, runCommands [.update data, .update data] s = .next t ∧ exec (.update (data ++ data)) s = .next t) ∧
  (∀ s : State, s.status = .operational → s.filled.toNat ≤ 63 → exec (.update []) s = .next s) ∧
  (∀ s : State, s.status = .operational → ∃ t r, runCommands [.digest, .digest] s = .next t ∧
    t.responses = s.responses ++ [r, responseOf (messageDigest [])])

/-- 95_test_vectors.md section 1.2: HASH "abc". -/
def Obligations.HashOfAbc : Prop :=
  ∀ s : State, s.status = .operational → ∃ t,
    runCommands (SourceCommand.hash [.text "abc".toList]).expand s = .next t ∧
      t.responses = s.responses ++
        [asciiBytes "ba7816bf8f01cfea414140de5dae2223b00361a396177a9cb410ff61f20015ad".toList]

/-! ## Faults, refusals and the order of the checks -/

/-- 60_exceptions.md R131: COMPRESS entered with FILLED not 64 takes the fault CompressNotFull (code 1): the status
becomes Faulted, the record holds FILLED, and nothing else changes. No command and no step reaches it. -/
def Obligations.CompressNotFullIsUnreachable : Prop :=
  (∀ s : State, s.filled ≠ 64 → compress s = { s with status := .faulted (.compressNotFull s.filled) }) ∧
  (∀ n, (Fault.compressNotFull n).code = 1) ∧
  (∀ (i : Instr) (s t : State), s.NoCompressFault → exec i s = .next t → t.NoCompressFault) ∧
  (∀ s t : State, s.NoCompressFault → step s = .next t → t.NoCompressFault)

/-- 60_exceptions.md R132: while Faulted no command has a step and nothing clears the fault; a command performs exactly
while the engine is Operational. Power-on is the only exit. -/
def Obligations.FaultedEngineHasNoStep : Prop :=
  (∀ (s : State) (r : Fault), s.status = .faulted r →
    (∀ i, exec i s = .fault r) ∧
    (∀ i rest, runCommands (i :: rest) s = .fault r) ∧
    (∀ t, step s = .next t → SameEngine s t ∧ t.responses = s.responses) ∧
    s.powerOn.status = .operational) ∧
  (∀ (i : Instr) (s : State), s.status = .operational → ∃ t, exec i s = .next t)

/-- 30_encoding.md R53 and 60_exceptions.md R136: what the decoder refuses, and that a refused command changes no
engine state, returns no response, leaves the rest of the stream undecoded, and marks the run for good. That the mark
is a field which a first step sets and every later step answers with is the model's form (log entry 4), and that the mark
of an IncompleteCommand holds the offset of the command's first byte is the model's reading (log entry 22). -/
def Obligations.RefusedCommandsMarkTheRun : Prop :=
  (∀ bytes op, decode bytes = .reserved op ↔ ∃ rest, bytes = op :: rest ∧ 0x03 ≤ op.toNat) ∧
  (∀ bytes, decode bytes = .incomplete ↔
    ∃ rest, bytes = 0x01#8 :: rest ∧ (rest.length < 8 ∨ rest.length < 8 + beNat (rest.take 8))) ∧
  (∀ (s : State) op, s.refusal = none → decode s.stream = .reserved op →
    step s = .next { s with refusal := some (.reservedOpcode op s.offset) }) ∧
  (∀ s : State, s.refusal = none → decode s.stream = .incomplete →
    step s = .next { s with refusal := some (.incompleteCommand s.offset) }) ∧
  (∀ (s : State) r, s.refusal = some r → step s = .refused r ∧
    ∀ n, observeStream n s = s.observation ∧ (observeStream n s).refused = true)

/-- 60_exceptions.md R134: the decoder's refusals come before concurrent invocation and before the faulted engine, for
one caller and for several; concurrent invocation before the faulted engine; the faulted engine before LengthOverflow;
and LengthOverflow before the first byte is absorbed. R134 gives the order only. The model's own in it: that a refusal is
a mark which the refused step sets (log entry 4), the offset an IncompleteCommand reports (log entry 22), the session
with a port for each caller (log entry 10), that a command issued to a Faulted engine is in progress (log entry 25), and
that the LengthOverflow record holds FILLED (log entry 16). -/
def Obligations.ChecksComeInOrder : Prop :=
  (∀ (s : State) (r : Fault) op, s.status = .faulted r → s.refusal = none → decode s.stream = .reserved op →
    step s = .next { s with refusal := some (.reservedOpcode op s.offset) }) ∧
  (∀ (s : State) (r : Fault), s.status = .faulted r → s.refusal = none → decode s.stream = .incomplete →
    step s = .next { s with refusal := some (.incompleteCommand s.offset) }) ∧
  (∀ (x : Session) c p op, x.engine.refusal = none → x.ports[c]? = some p → decode p.stream = .reserved op →
    x.accept (.issue c) =
      .next { x with engine := { x.engine with refusal := some (.reservedOpcode op p.offset) } }) ∧
  (∀ (x : Session) c p, x.engine.refusal = none → x.ports[c]? = some p → decode p.stream = .incomplete →
    x.accept (.issue c) =
      .next { x with engine := { x.engine with refusal := some (.incompleteCommand p.offset) } }) ∧
  (∀ (x : Session) (r : Fault) (j : Issued) c p i rest, x.engine.status = .faulted r → x.engine.refusal = none →
    x.inProgress = some j → x.ports[c]? = some p → decode p.stream = .command i rest →
    x.accept (.issue c) = .next { x with engine := { x.engine with refusal := some .concurrentInvocation } }) ∧
  (∀ (s : State) (r : Fault) data, s.status = .faulted r → 2 ^ 64 - 1 < s.totalLen.toNat + data.length →
    exec (.update data) s = .fault r) ∧
  (∀ (s : State) (data : List Byte), s.status = .operational → 2 ^ 64 - 1 < s.totalLen.toNat + data.length →
    SameEngine { s with status := .faulted (.lengthOverflow s.filled) } (absorb .fault data s))

/-- 60_exceptions.md R137: one command issued and completed is not refused and does to the engine what exec does; a
second command issued before the first completes is refused, leaves the engine's registers, and the schedule goes no
further. R137 gives the refusal of the schedule only. The model's own in it: that a command takes effect when it
completes, so that the registers a refused second issue leaves are those before the first command (log entry 10); that
the refusal is a mark, with which every later event answers (log entry 4); and that on a Faulted engine too the first
command is in progress (log entry 25). -/
def Obligations.ConcurrentInvocationIsRefused : Prop :=
  (∀ (s t : State) ports c p i rest, s.refusal = none → ports[c]? = some p → decode p.stream = .command i rest →
    exec i s = .next t → ∃ ports',
      ports' = ports.set c ⟨rest, p.offset + (p.stream.length - rest.length)⟩ ∧
      Session.accept ⟨s, ports, none⟩ (.issue c) = .next ⟨s, ports', some ⟨c, i⟩⟩ ∧
      Session.accept ⟨s, ports', some ⟨c, i⟩⟩ .complete = .next ⟨t, ports', none⟩) ∧
  (∀ (s : State) ports j c p i rest, s.refusal = none → ports[c]? = some p → decode p.stream = .command i rest →
    ∃ u, Session.accept ⟨s, ports, some j⟩ (.issue c) = .next ⟨u, ports, some j⟩ ∧ SameEngine s u ∧
      u.responses = s.responses ∧ ∀ e, Session.accept ⟨u, ports, some j⟩ e = .refused .concurrentInvocation)

/-- 20_memory.md R48: a step of one engine never changes another, and the order of steps of two engines does not
matter. -/
def Obligations.EnginesAreIndependent : Prop :=
  (∀ (b : Bank) (j k : Nat), j ≠ k → (b.stepAt k)[j]? = b[j]?) ∧
  (∀ (b : Bank) (j k : Nat), j ≠ k → (b.stepAt k).stepAt j = (b.stepAt j).stepAt k) ∧
  (∀ (b : Bank) (k : Nat) (s t : State), b[k]? = some s → step s = .next t → (b.stepAt k)[k]? = some t)

/-! ## Encoding and the step -/

/-- When the stream holds a whole command, a step performs exactly it, with the command's bytes taken from the stream
and the offset moved past them; when it holds none, an operational engine holds its state (60_exceptions.md R145). -/
def Obligations.StepRunsDecodedCommand : Prop :=
  (∀ (s : State) i rest, s.refusal = none → decode s.stream = .command i rest →
    step s = exec i { s with stream := rest, offset := s.offset + (s.stream.length - rest.length) }) ∧
  (∀ (s : State) i rest, s.refusal = none → i.WellFormed → s.stream = encode i ++ rest →
    step s = exec i { s with stream := rest, offset := s.offset + encodedLength i }) ∧
  (∀ s : State, s.refusal = none → s.stream = [] → s.status = .operational → step s = .next s)

/-- 30_encoding.md R50, R51: decoding the encoding of a well-formed command gives it back, and what follows it. -/
def Obligations.DecodeEncodeRoundTrip : Prop :=
  ∀ (i : Instr) (rest : List Byte), i.WellFormed → decode (encode i ++ rest) = .command i rest

/-- 30_encoding.md R50: every command has one spelling: what decodes to a command is its encoding and the rest, and the
command is well-formed. -/
def Obligations.EncodeDecodeRoundTrip : Prop :=
  ∀ (i : Instr) (bytes rest : List Byte), decode bytes = .command i rest →
    i.WellFormed ∧ bytes = encode i ++ rest

/-- 95_test_vectors.md section 6: words written out from 30_encoding.md R50 and R52. -/
def Obligations.WrittenWordsDecode : Prop :=
  decode [0x00] = .command .new [] ∧
  decode [0x02] = .command .digest [] ∧
  decode [0x01, 0, 0, 0, 0, 0, 0, 0, 0] = .command (.update []) [] ∧
  decode [0x01, 0, 0, 0, 0, 0, 0, 0, 3, 0x61, 0x62, 0x63] = .command (.update [0x61, 0x62, 0x63]) [] ∧
  decode [0x01, 0, 0, 0, 0, 0, 0, 0, 2, 0x80, 0x00, 0x02] = .command (.update [0x80, 0x00]) [0x02] ∧
  decode [0x03] = .reserved 0x03 ∧
  decode [0x01, 0, 0, 0] = .incomplete

/-- 30_encoding.md R50: running the stream of a command sequence, one step a command, does what performing the commands
does, takes exactly their bytes, and leaves the rest of the stream. -/
def Obligations.StreamRunsItsCommands : Prop :=
  ∀ (is : List Instr) (rest : List Byte) (s t : State), (∀ i ∈ is, i.WellFormed) → s.refusal = none →
    runCommands is s = .next t →
    Host.Core.run Sys2Proof.core is.length { s with stream := encodeAll is ++ rest } =
      .next { t with stream := rest, offset := s.offset + (encodeAll is).length }

/-- 30_encoding.md R55: a string item of printable characters, none of them a double quote or a backslash, assembles to
the UPDATE of its ASCII codes, and under the pseudo-instruction HASH to NEW, that UPDATE and DIGEST; and the worked
example. That a semicolon inside a string is data is the model's reading (log entry 15), and so is the stream of a string
of 2^64 characters or more, which R50 cannot encode (log entry 24). -/
def Obligations.TextAssemblesToStream : Prop :=
  (∀ chars : List Char, (∀ c ∈ chars, isStringChar c = true) →
    assembleText ("UPDATE ".toList ++ [Char.ofNat 0x22] ++ chars ++ [Char.ofNat 0x22]) =
      some (encode (.update (asciiBytes chars))) ∧
    assembleText ("HASH ".toList ++ [Char.ofNat 0x22] ++ chars ++ [Char.ofNat 0x22]) =
      some (encode .new ++ encode (.update (asciiBytes chars)) ++ encode .digest)) ∧
  assembleText "UPDATE \"ab\" 0x63 ; a comment".toList =
    some [0x01, 0, 0, 0, 0, 0, 0, 0, 3, 0x61, 0x62, 0x63]

/-! ## Invariants -/

/-- 10_state.md R24 and the forms of the buffer, the responses and the status: every step keeps the invariant. -/
def Obligations.StepKeepsInvariant : Prop :=
  ∀ s t : State, s.Inv → step s = .next t → t.Inv

/-- The invariant holds right after reset. -/
def Obligations.ResetHasInvariant : Prop := State.reset.Inv

/-- 10_state.md R24: the fill invariant alone is kept by every command, for both values of `LEN_OVERFLOW` and past the
wrap of TOTAL_LEN; in it the phase is Empty or Accumulating (R17). -/
def Obligations.CommandsKeepFillInvariant : Prop :=
  State.reset.FillInv ∧
  (∀ (i : Instr) (s t : State), s.BufInv → s.FillInv → exec i s = .next t → t.FillInv) ∧
  (∀ (policy : LenOverflow) (data : List Byte) (s : State), s.status = .operational → s.BufInv → s.FillInv →
    (absorb policy data s).FillInv) ∧
  (∀ s : State, s.FillInv →
    (s.filled.toNat = 0 ∧ s.phase = some .empty) ∨ (0 < s.filled.toNat ∧ s.phase = some .accumulating))

/-! ## What a caller can tell -/

/-- 10_state.md R15 and R26: two states that differ only in the buffer bytes at and above FILLED give the same
observation after every command sequence and along every stream. -/
def Obligations.StaleBufferBytesAreUnobservable : Prop :=
  ∀ s t : State, s.BufInv → t.BufInv → s.filled.toNat ≤ 63 → SameButStaleBytes s t →
    Indistinguishable s t ∧ ∀ n, observeStream n s = observeStream n t

/-- 30_encoding.md R54: NEW and UPDATE return nothing, DIGEST returns one response of 64 bytes, the characters of the
formatted digest in order, each its ASCII code. -/
def Obligations.OnlyDigestResponds : Prop :=
  (∀ (s t : State), exec .new s = .next t → t.responses = s.responses) ∧
  (∀ data (s t : State), exec (.update data) s = .next t → t.responses = s.responses) ∧
  (∀ s : State, s.status = .operational → ∃ t d, exec .digest s = .next t ∧
    t.responses = s.responses ++ [responseOf d]) ∧
  (∀ d : Words8, (responseOf d).length = 64 ∧ ∀ k < 64,
    ((responseOf d).getD k 0).toNat = ((format d).getD k '0').toNat) ∧
  (∀ v : BitVec 4, (hexDigit v).toNat = if v.toNat < 10 then 0x30 + v.toNat else 0x61 + (v.toNat - 10))

/-! ## The expander and the mixer -/

/-- 40_schedule.md R56, R57: bit i of a rotation is bit (i + n) mod 32, of a shift bit i + n or zero; corner cases and
examples. -/
def Obligations.RotateAndShiftBits : Prop :=
  (∀ (x : Word) (n i : Nat), n ≤ 31 → i ≤ 31 →
    (rotr x n).getLsbD i = x.getLsbD ((i + n) % 32) ∧
    (shr x n).getLsbD i = (decide (i + n ≤ 31) && x.getLsbD (i + n))) ∧
  (∀ x : Word, rotr x 0 = x) ∧
  (∀ n, n ≤ 31 → rotr 0 n = 0 ∧ rotr 0xFFFFFFFF n = 0xFFFFFFFF) ∧
  rotr 0x12345678 8 = 0x78123456 ∧ rotr 0x00000001 1 = 0x80000000 ∧
  shr 0x80000000 3 = 0x10000000 ∧ shr 0xFFFFFFFF 10 = 0x003FFFFF

/-- 40_schedule.md R58: addition modulo 2^32; a chain of words is the sum modulo 2^32, in any order. -/
def Obligations.AdditionIsModular : Prop :=
  (∀ x y : Word, (add32 x y).toNat = (x.toNat + y.toNat) % 2 ^ 32) ∧
  (∀ ws : List Word, ws.foldl add32 0 = BitVec.ofNat 32 (ws.map BitVec.toNat).sum) ∧
  (∀ ws vs : List Word, ws.Perm vs → ws.foldl add32 0 = vs.foldl add32 0) ∧
  add32 0xFFFFFFFF 1 = 0 ∧ add32 0x80000000 0x80000000 = 0 ∧
  [0xFFFFFFFF, 0xFFFFFFFF, 0xFFFFFFFF, 0xFFFFFFFF, 0xFFFFFFFF].foldl add32 (0 : Word) = 0xFFFFFFFB

/-- 40_schedule.md R59, R60: the schedule sigmas are linear over XOR; corner cases and examples. -/
def Obligations.ScheduleSigmas : Prop :=
  (∀ x : Word, smallSigma0 x = rotr x 7 ^^^ rotr x 18 ^^^ shr x 3 ∧
    smallSigma1 x = rotr x 17 ^^^ rotr x 19 ^^^ shr x 10) ∧
  (∀ x y : Word, smallSigma0 (x ^^^ y) = smallSigma0 x ^^^ smallSigma0 y ∧
    smallSigma1 (x ^^^ y) = smallSigma1 x ^^^ smallSigma1 y) ∧
  smallSigma0 0 = 0 ∧ smallSigma0 0xFFFFFFFF = 0x1FFFFFFF ∧
  smallSigma0 0x00000001 = 0x02004000 ∧ smallSigma0 0x12345678 = 0xE7FCE6EE ∧
  smallSigma1 0 = 0 ∧ smallSigma1 0xFFFFFFFF = 0x003FFFFF ∧
  smallSigma1 0x00000001 = 0x0000A000 ∧ smallSigma1 0x12345678 = 0xA1F78649

/-- 41_compression.md R64, R65: the round sigmas, and that all four sigmas are bijections of the 32-bit words. -/
def Obligations.SigmasAreBijections : Prop :=
  (∀ x : Word, bigSigma0 x = rotr x 2 ^^^ rotr x 13 ^^^ rotr x 22 ∧
    bigSigma1 x = rotr x 6 ^^^ rotr x 11 ^^^ rotr x 25) ∧
  (∀ x y : Word, bigSigma0 (x ^^^ y) = bigSigma0 x ^^^ bigSigma0 y ∧
    bigSigma1 (x ^^^ y) = bigSigma1 x ^^^ bigSigma1 y) ∧
  Function.Bijective bigSigma0 ∧ Function.Bijective bigSigma1 ∧
  Function.Bijective smallSigma0 ∧ Function.Bijective smallSigma1 ∧
  bigSigma0 0 = 0 ∧ bigSigma0 0xFFFFFFFF = 0xFFFFFFFF ∧
  bigSigma0 0x00000001 = 0x40080400 ∧ bigSigma0 0x6A09E667 = 0xCE20B47E ∧
  bigSigma1 0 = 0 ∧ bigSigma1 0xFFFFFFFF = 0xFFFFFFFF ∧
  bigSigma1 0x00000001 = 0x04200080 ∧ bigSigma1 0x510E527F = 0x3587272B

/-- 41_compression.md R66, R67: Ch chooses and Maj takes the majority, bit by bit; corner cases and examples. -/
def Obligations.ChooseAndMajority : Prop :=
  (∀ (x y z : Word) (i : Nat), i ≤ 31 →
    (ch x y z).getLsbD i = (if x.getLsbD i then y.getLsbD i else z.getLsbD i) ∧
    ((maj x y z).getLsbD i = true ↔
      2 ≤ (x.getLsbD i).toNat + (y.getLsbD i).toNat + (z.getLsbD i).toNat)) ∧
  (∀ x y z : Word, ch 0xFFFFFFFF y z = y ∧ ch 0 y z = z ∧ ch x y y = y ∧
    ch x y z = (x &&& y ||| ~~~x &&& z)) ∧
  (∀ x y z : Word, maj x x y = x ∧ maj x y z = maj y x z ∧ maj x y z = maj x z y) ∧
  ch 0xF0F0F0F0 0xAAAAAAAA 0x55555555 = 0xA5A5A5A5 ∧ ch 0x510E527F 0x9B05688C 0x1F83D9AB = 0x1F85C98C ∧
  maj 0xF0F0F0F0 0xCCCCCCCC 0xAAAAAAAA = 0xE8E8E8E8 ∧ maj 0x6A09E667 0xBB67AE85 0x3C6EF372 = 0x3A6FE667

/-- 41_compression.md R68: the new a and e as sums modulo 2^32 of old values, the other six as copies; and round 0 of
the "abc" block. -/
def Obligations.RoundComputesFromOldValues : Prop :=
  (∀ (w : List Word) (v : Work) (t : Nat), ∃ t1 t2 : Nat,
    t1 = (K t).toNat + (w.getD t 0).toNat + (ch v.e v.f v.g).toNat + v.h.toNat + (bigSigma1 v.e).toNat ∧
    t2 = (bigSigma0 v.a).toNat + (maj v.a v.b v.c).toNat ∧
    (round w v t).a.toNat = (t1 + t2) % 2 ^ 32 ∧ (round w v t).e.toNat = (v.d.toNat + t1) % 2 ^ 32 ∧
    (round w v t).b = v.a ∧ (round w v t).c = v.b ∧ (round w v t).d = v.c ∧
    (round w v t).f = v.e ∧ (round w v t).g = v.f ∧ (round w v t).h = v.g) ∧
  roundT1 (K 0) 0x61626380 (Work.ofWords IV) = 0x54DA50E8 ∧ roundT2 (Work.ofWords IV) = 0x08909AE5 ∧
  (round [0x61626380] (Work.ofWords IV) 0).a = 0x5D6AEBCD ∧
  (round [0x61626380] (Work.ofWords IV) 0).e = 0xFA2A4622

/-- 20_memory.md R33: word t of a block is big-endian. -/
def Obligations.BlockWordsAreBigEndian : Prop :=
  ∀ (blk : List Byte) (t : Nat),
    (be32 blk t).toNat = (blk.getD (4 * t) 0).toNat * 2 ^ 24 + (blk.getD (4 * t + 1) 0).toNat * 2 ^ 16 +
      (blk.getD (4 * t + 2) 0).toNat * 2 ^ 8 + (blk.getD (4 * t + 3) 0).toNat

/-- 40_schedule.md R61, R62, R63: the schedule has 64 words, the first sixteen are the words of the block, the others
satisfy the recurrence; an all-zero block gives zero words; the words 16 and 17 of the "abc" block. -/
def Obligations.ScheduleSatisfiesRecurrence : Prop :=
  (∀ blk : List Byte, (expand blk).length = 64 ∧
    (∀ t < 16, (expand blk).getD t 0 = be32 blk t) ∧
    (∀ t, 16 ≤ t → t < 64 → (expand blk).getD t 0 =
      add32 (add32 (add32 (smallSigma1 ((expand blk).getD (t - 2) 0)) (smallSigma0 ((expand blk).getD (t - 15) 0)))
        ((expand blk).getD (t - 16) 0)) ((expand blk).getD (t - 7) 0))) ∧
  (∀ blk : List Byte, (∀ b ∈ blk, b = 0) → ∀ t, (expand blk).getD t 0 = 0) ∧
  (expand ([0x61, 0x62, 0x63, 0x80] ++ List.replicate 59 0 ++ [0x18])).getD 16 0 = 0x61626380 ∧
  (expand ([0x61, 0x62, 0x63, 0x80] ++ List.replicate 59 0 ++ [0x18])).getD 17 0 = 0x000F0000

/-- 41_compression.md R71 and 40_schedule.md R63: the realisation with a 16-word window computes the same compression. -/
def Obligations.WindowRealisationIsEquivalent : Prop :=
  ∀ (h : Words8) (blk : List Byte), windowCf h blk = cf h blk

/-- 41_compression.md R69 and R70: with FILLED = 64 COMPRESS writes H only, each word the old one plus the working
variable after 64 rounds, modulo 2^32, and its H depends on the old H and the 64 bytes alone; otherwise it faults. -/
def Obligations.CompressAddsRoundsToRunningState : Prop :=
  (∀ s : State, s.filled = 64 → ∃ v : Work, ∃ h' : Words8,
    v = (List.range 64).foldl (round (expand ((List.range 64).map (Memory.read s.buf))))
      ⟨s.h.w0, s.h.w1, s.h.w2, s.h.w3, s.h.w4, s.h.w5, s.h.w6, s.h.w7⟩ ∧
    compress s = { s with h := h' } ∧ h' = cf s.h ((List.range 64).map (Memory.read s.buf)) ∧
    h'.toList.map BitVec.toNat =
      (List.zip s.h.toList [v.a, v.b, v.c, v.d, v.e, v.f, v.g, v.h]).map
        fun p => (p.1.toNat + p.2.toNat) % 2 ^ 32) ∧
  (∀ s t : State, s.filled = 64 → t.filled = 64 → s.h = t.h →
    (∀ j < 64, Memory.read s.buf j = Memory.read t.buf j) → (compress s).h = (compress t).h) ∧
  (∀ s : State, s.filled ≠ 64 → compress s = { s with status := .faulted (.compressNotFull s.filled) })

/-- 10_state.md R19, R20: each K[t] is the first 32 bits of the fractional part of the cube root of the (t+1)-th prime,
each IV[i] of the square root of the (i+1)-th. -/
def Obligations.RomHoldsRootFractions : Prop :=
  (∀ t < 64, ∃ q : Nat,
    (q * 2 ^ 32 + (K t).toNat) ^ 3 ≤ Nat.nth Nat.Prime t * 2 ^ 96 ∧
    Nat.nth Nat.Prime t * 2 ^ 96 < (q * 2 ^ 32 + (K t).toNat + 1) ^ 3) ∧
  (∀ i : Fin 8, ∃ q : Nat,
    (q * 2 ^ 32 + (IV.get i).toNat) ^ 2 ≤ Nat.nth Nat.Prime i * 2 ^ 64 ∧
    Nat.nth Nat.Prime i * 2 ^ 64 < (q * 2 ^ 32 + (IV.get i).toNat + 1) ^ 2)

/-! ## The formatter -/

/-- 44_formatter.md R120: 64 characters, digit k of word i from bits 31-4k..28-4k, all in the lowercase alphabet, with
leading zeros kept; and the examples. -/
def Obligations.FormatGivesSixtyFourDigits : Prop :=
  (∀ d : Words8, (format d).length = 64 ∧ (∀ c ∈ format d, c ∈ "0123456789abcdef".toList) ∧
    ∀ (i : Fin 8) (k : Nat), k < 8 →
      (format d)[8 * i.val + k]? = "0123456789abcdef".toList[(d.get i).toNat / 2 ^ (28 - 4 * k) % 16]?) ∧
  formatWord 0x0000000A = "0000000a".toList ∧
  format ⟨0xba7816bf, 0x8f01cfea, 0x414140de, 0x5dae2223, 0xb00361a3, 0x96177a9c, 0xb410ff61, 0xf20015ad⟩ =
    "ba7816bf8f01cfea414140de5dae2223b00361a396177a9cb410ff61f20015ad".toList

/-- 44_formatter.md R121: the words are recovered from the string, so the formatter is injective. -/
def Obligations.FormatIsInvertible : Prop :=
  (∀ d : Words8, parseDigest (format d) = d) ∧ Function.Injective format ∧ Function.Injective responseOf

/-- 44_formatter.md R122: read as 32 bytes, the digest is its words big-endian, and byte b is the pair of characters at
2b and 2b+1. -/
def Obligations.DigestBytesAreCharacterPairs : Prop :=
  ∀ d : Words8, (digestBytes d).length = 32 ∧
    (∀ b < 32, ((digestBytes d).getD b 0).toNat =
      16 * hexVal ((format d).getD (2 * b) '0') + hexVal ((format d).getD (2 * b + 1) '0')) ∧
    (∀ (i : Fin 8) (k : Nat), k < 4 →
      ((digestBytes d).getD (4 * i.val + k) 0).toNat = (d.get i).toNat / 2 ^ (24 - 8 * k) % 256) ∧
    ((digestBytes d).getD 0 0).toNat = d.w0.toNat / 2 ^ 24 ∧ ((digestBytes d).getD 31 0).toNat = d.w7.toNat % 256
end

