-- ==== Sys2Proof/Laws/State.lean ====
section
/-! SUPPORT. What each named update does to each field of State, one lemma a field, so that no proof unfolds an update. -/

namespace Sys2Proof.Machine

/-! ## setH -/

@[simp] theorem State.setH_h (s : State) (v : Words8) : (s.setH v).h = v := rfl
@[simp] theorem State.setH_buf (s : State) (v : Words8) : (s.setH v).buf = s.buf := rfl
@[simp] theorem State.setH_filled (s : State) (v : Words8) : (s.setH v).filled = s.filled := rfl
@[simp] theorem State.setH_totalLen (s : State) (v : Words8) : (s.setH v).totalLen = s.totalLen := rfl
@[simp] theorem State.setH_status (s : State) (v : Words8) : (s.setH v).status = s.status := rfl
@[simp] theorem State.setH_refusal (s : State) (v : Words8) : (s.setH v).refusal = s.refusal := rfl
@[simp] theorem State.setH_stream (s : State) (v : Words8) : (s.setH v).stream = s.stream := rfl
@[simp] theorem State.setH_offset (s : State) (v : Words8) : (s.setH v).offset = s.offset := rfl
@[simp] theorem State.setH_responses (s : State) (v : Words8) : (s.setH v).responses = s.responses := rfl

/-! ## setFilled -/

@[simp] theorem State.setFilled_h (s : State) (n : Nat) : (s.setFilled n).h = s.h := rfl
@[simp] theorem State.setFilled_buf (s : State) (n : Nat) : (s.setFilled n).buf = s.buf := rfl
@[simp] theorem State.setFilled_filled (s : State) (n : Nat) : (s.setFilled n).filled = BitVec.ofNat 7 n := rfl
@[simp] theorem State.setFilled_totalLen (s : State) (n : Nat) : (s.setFilled n).totalLen = s.totalLen := rfl
@[simp] theorem State.setFilled_status (s : State) (n : Nat) : (s.setFilled n).status = s.status := rfl
@[simp] theorem State.setFilled_refusal (s : State) (n : Nat) : (s.setFilled n).refusal = s.refusal := rfl
@[simp] theorem State.setFilled_stream (s : State) (n : Nat) : (s.setFilled n).stream = s.stream := rfl
@[simp] theorem State.setFilled_offset (s : State) (n : Nat) : (s.setFilled n).offset = s.offset := rfl
@[simp] theorem State.setFilled_responses (s : State) (n : Nat) : (s.setFilled n).responses = s.responses := rfl

/-! ## store -/

@[simp] theorem State.store_h (s : State) (bytes : List Byte) : (s.store bytes).h = s.h := rfl
@[simp] theorem State.store_buf (s : State) (bytes : List Byte) : (s.store bytes).buf = Memory.writeBytes s.buf s.filled.toNat bytes := rfl
@[simp] theorem State.store_filled (s : State) (bytes : List Byte) : (s.store bytes).filled = s.filled := rfl
@[simp] theorem State.store_totalLen (s : State) (bytes : List Byte) : (s.store bytes).totalLen = s.totalLen := rfl
@[simp] theorem State.store_status (s : State) (bytes : List Byte) : (s.store bytes).status = s.status := rfl
@[simp] theorem State.store_refusal (s : State) (bytes : List Byte) : (s.store bytes).refusal = s.refusal := rfl
@[simp] theorem State.store_stream (s : State) (bytes : List Byte) : (s.store bytes).stream = s.stream := rfl
@[simp] theorem State.store_offset (s : State) (bytes : List Byte) : (s.store bytes).offset = s.offset := rfl
@[simp] theorem State.store_responses (s : State) (bytes : List Byte) : (s.store bytes).responses = s.responses := rfl

/-! ## addLength -/

@[simp] theorem State.addLength_h (s : State) (n : Nat) : (s.addLength n).h = s.h := rfl
@[simp] theorem State.addLength_buf (s : State) (n : Nat) : (s.addLength n).buf = s.buf := rfl
@[simp] theorem State.addLength_filled (s : State) (n : Nat) : (s.addLength n).filled = s.filled := rfl
@[simp] theorem State.addLength_totalLen (s : State) (n : Nat) : (s.addLength n).totalLen = BitVec.ofNat 64 (s.totalLen.toNat + n) := rfl
@[simp] theorem State.addLength_status (s : State) (n : Nat) : (s.addLength n).status = s.status := rfl
@[simp] theorem State.addLength_refusal (s : State) (n : Nat) : (s.addLength n).refusal = s.refusal := rfl
@[simp] theorem State.addLength_stream (s : State) (n : Nat) : (s.addLength n).stream = s.stream := rfl
@[simp] theorem State.addLength_offset (s : State) (n : Nat) : (s.addLength n).offset = s.offset := rfl
@[simp] theorem State.addLength_responses (s : State) (n : Nat) : (s.addLength n).responses = s.responses := rfl

/-! ## loadInitial -/

@[simp] theorem State.loadInitial_h (s : State) : (s.loadInitial).h = IV := rfl
@[simp] theorem State.loadInitial_buf (s : State) : (s.loadInitial).buf = [] := rfl
@[simp] theorem State.loadInitial_filled (s : State) : (s.loadInitial).filled = 0 := rfl
@[simp] theorem State.loadInitial_totalLen (s : State) : (s.loadInitial).totalLen = 0 := rfl
@[simp] theorem State.loadInitial_status (s : State) : (s.loadInitial).status = s.status := rfl
@[simp] theorem State.loadInitial_refusal (s : State) : (s.loadInitial).refusal = s.refusal := rfl
@[simp] theorem State.loadInitial_stream (s : State) : (s.loadInitial).stream = s.stream := rfl
@[simp] theorem State.loadInitial_offset (s : State) : (s.loadInitial).offset = s.offset := rfl
@[simp] theorem State.loadInitial_responses (s : State) : (s.loadInitial).responses = s.responses := rfl

/-! ## respond -/

@[simp] theorem State.respond_h (s : State) (v : Response) : (s.respond v).h = s.h := rfl
@[simp] theorem State.respond_buf (s : State) (v : Response) : (s.respond v).buf = s.buf := rfl
@[simp] theorem State.respond_filled (s : State) (v : Response) : (s.respond v).filled = s.filled := rfl
@[simp] theorem State.respond_totalLen (s : State) (v : Response) : (s.respond v).totalLen = s.totalLen := rfl
@[simp] theorem State.respond_status (s : State) (v : Response) : (s.respond v).status = s.status := rfl
@[simp] theorem State.respond_refusal (s : State) (v : Response) : (s.respond v).refusal = s.refusal := rfl
@[simp] theorem State.respond_stream (s : State) (v : Response) : (s.respond v).stream = s.stream := rfl
@[simp] theorem State.respond_offset (s : State) (v : Response) : (s.respond v).offset = s.offset := rfl
@[simp] theorem State.respond_responses (s : State) (v : Response) : (s.respond v).responses = s.responses ++ [v] := rfl

/-! ## consume -/

@[simp] theorem State.consume_h (s : State) (rest : List Byte) : (s.consume rest).h = s.h := rfl
@[simp] theorem State.consume_buf (s : State) (rest : List Byte) : (s.consume rest).buf = s.buf := rfl
@[simp] theorem State.consume_filled (s : State) (rest : List Byte) : (s.consume rest).filled = s.filled := rfl
@[simp] theorem State.consume_totalLen (s : State) (rest : List Byte) : (s.consume rest).totalLen = s.totalLen := rfl
@[simp] theorem State.consume_status (s : State) (rest : List Byte) : (s.consume rest).status = s.status := rfl
@[simp] theorem State.consume_refusal (s : State) (rest : List Byte) : (s.consume rest).refusal = s.refusal := rfl
@[simp] theorem State.consume_stream (s : State) (rest : List Byte) : (s.consume rest).stream = rest := rfl
@[simp] theorem State.consume_offset (s : State) (rest : List Byte) : (s.consume rest).offset = s.offset + (s.stream.length - rest.length) := rfl
@[simp] theorem State.consume_responses (s : State) (rest : List Byte) : (s.consume rest).responses = s.responses := rfl

/-! ## enterFault -/

@[simp] theorem State.enterFault_h (s : State) (r : Fault) : (s.enterFault r).h = s.h := rfl
@[simp] theorem State.enterFault_buf (s : State) (r : Fault) : (s.enterFault r).buf = s.buf := rfl
@[simp] theorem State.enterFault_filled (s : State) (r : Fault) : (s.enterFault r).filled = s.filled := rfl
@[simp] theorem State.enterFault_totalLen (s : State) (r : Fault) : (s.enterFault r).totalLen = s.totalLen := rfl
@[simp] theorem State.enterFault_status (s : State) (r : Fault) : (s.enterFault r).status = .faulted r := rfl
@[simp] theorem State.enterFault_refusal (s : State) (r : Fault) : (s.enterFault r).refusal = s.refusal := rfl
@[simp] theorem State.enterFault_stream (s : State) (r : Fault) : (s.enterFault r).stream = s.stream := rfl
@[simp] theorem State.enterFault_offset (s : State) (r : Fault) : (s.enterFault r).offset = s.offset := rfl
@[simp] theorem State.enterFault_responses (s : State) (r : Fault) : (s.enterFault r).responses = s.responses := rfl

/-! ## refuse -/

@[simp] theorem State.refuse_h (s : State) (r : Refusal) : (s.refuse r).h = s.h := rfl
@[simp] theorem State.refuse_buf (s : State) (r : Refusal) : (s.refuse r).buf = s.buf := rfl
@[simp] theorem State.refuse_filled (s : State) (r : Refusal) : (s.refuse r).filled = s.filled := rfl
@[simp] theorem State.refuse_totalLen (s : State) (r : Refusal) : (s.refuse r).totalLen = s.totalLen := rfl
@[simp] theorem State.refuse_status (s : State) (r : Refusal) : (s.refuse r).status = s.status := rfl
@[simp] theorem State.refuse_refusal (s : State) (r : Refusal) : (s.refuse r).refusal = some r := rfl
@[simp] theorem State.refuse_stream (s : State) (r : Refusal) : (s.refuse r).stream = s.stream := rfl
@[simp] theorem State.refuse_offset (s : State) (r : Refusal) : (s.refuse r).offset = s.offset := rfl
@[simp] theorem State.refuse_responses (s : State) (r : Refusal) : (s.refuse r).responses = s.responses := rfl

/-! ## powerOn -/

@[simp] theorem State.powerOn_h (s : State) : (s.powerOn).h = IV := rfl
@[simp] theorem State.powerOn_buf (s : State) : (s.powerOn).buf = [] := rfl
@[simp] theorem State.powerOn_filled (s : State) : (s.powerOn).filled = 0 := rfl
@[simp] theorem State.powerOn_totalLen (s : State) : (s.powerOn).totalLen = 0 := rfl
@[simp] theorem State.powerOn_status (s : State) : (s.powerOn).status = .operational := rfl
@[simp] theorem State.powerOn_refusal (s : State) : (s.powerOn).refusal = s.refusal := rfl
@[simp] theorem State.powerOn_stream (s : State) : (s.powerOn).stream = s.stream := rfl
@[simp] theorem State.powerOn_offset (s : State) : (s.powerOn).offset = s.offset := rfl
@[simp] theorem State.powerOn_responses (s : State) : (s.powerOn).responses = s.responses := rfl

/-! ## present -/

@[simp] theorem State.present_h (s : State) (bytes : List Byte) : (s.present bytes).h = s.h := rfl
@[simp] theorem State.present_buf (s : State) (bytes : List Byte) : (s.present bytes).buf = s.buf := rfl
@[simp] theorem State.present_filled (s : State) (bytes : List Byte) : (s.present bytes).filled = s.filled := rfl
@[simp] theorem State.present_totalLen (s : State) (bytes : List Byte) : (s.present bytes).totalLen = s.totalLen := rfl
@[simp] theorem State.present_status (s : State) (bytes : List Byte) : (s.present bytes).status = s.status := rfl
@[simp] theorem State.present_refusal (s : State) (bytes : List Byte) : (s.present bytes).refusal = none := rfl
@[simp] theorem State.present_stream (s : State) (bytes : List Byte) : (s.present bytes).stream = bytes := rfl
@[simp] theorem State.present_offset (s : State) (bytes : List Byte) : (s.present bytes).offset = s.offset := rfl
@[simp] theorem State.present_responses (s : State) (bytes : List Byte) : (s.present bytes).responses = s.responses := rfl

end Sys2Proof.Machine
end

