-- ==== Sys2Proof/Laws/Memory.lean ====
section
/-! SUPPORT. The laws of the buffer memory: read after write, and that every operation keeps the canonical form. -/

namespace Sys2Proof.Machine

namespace Memory

@[simp] theorem read_nil (j : Nat) : read [] j = unwritten := rfl

theorem wf_nil : wf [] := by simp [wf]

theorem wf_cons {c : Host.Cell} {m : Memory} :
    wf (c :: m) ↔ (∀ d ∈ m, c.1 < d.1) ∧ (c.1 < 64 ∧ c.2 ≠ unwritten) ∧ wf m := by
  simp only [wf, List.pairwise_cons, List.forall_mem_cons]
  tauto

/-- Below its first listed address a memory reads as unwritten. -/
theorem read_below {m : Memory} {j : Nat} (h : ∀ d ∈ m, j < d.1) : read m j = unwritten := by
  induction m with
  | nil => rfl
  | cons c m ih =>
    obtain ⟨hc, hm⟩ := List.forall_mem_cons.mp h
    simp only [read, if_neg (Nat.ne_of_lt hc)]
    exact ih hm

/-- Read after write, at every address. -/
theorem read_write {m : Memory} (hm : wf m) (j : Nat) (v : Byte) (i : Nat) :
    read (write m j v) i = if i = j then v else read m i := by
  induction m with
  | nil =>
    by_cases hv : v = unwritten
    · by_cases hi : i = j <;> simp [write, hv, hi]
    · by_cases hi : i = j <;> simp [write, read, hv, hi]
  | cons c m ih =>
    obtain ⟨x, b⟩ := c
    obtain ⟨hlt, -, hm'⟩ := wf_cons.mp hm
    simp only [write]
    split
    · next hjx =>
      have hbelow : read ((x, b) :: m) j = unwritten :=
        read_below (List.forall_mem_cons.mpr ⟨hjx, fun d hd => Nat.lt_trans hjx (hlt d hd)⟩)
      by_cases hv : v = unwritten
      · by_cases hi : i = j
        · subst hi; simp [hv, hbelow]
        · simp [hv, hi]
      · by_cases hi : i = j <;> simp [hv, hi, read]
    · split
      · next hjx =>
        subst hjx
        by_cases hi : i = j
        · subst hi
          by_cases hv : v = unwritten
          · simp [hv, read_below hlt]
          · simp [hv, read]
        · by_cases hv : v = unwritten <;> simp [hv, hi, read]
      · next hjx =>
        by_cases hix : i = x
        · subst hix
          have : ¬ i = j := fun h => hjx h.symm
          simp [read, this]
        · simp [read, hix, ih hm']

theorem mem_write {m : Memory} {j : Nat} {v : Byte} {c : Host.Cell} (hc : c ∈ write m j v) :
    c = (j, v) ∧ v ≠ unwritten ∨ c ∈ m := by
  induction m with
  | nil =>
    by_cases hv : v = unwritten
    · simp [write, hv] at hc
    · simp only [write, hv, if_false, List.mem_singleton] at hc; exact .inl ⟨hc, hv⟩
  | cons d m ih =>
    obtain ⟨x, b⟩ := d
    simp only [write] at hc
    split at hc
    · split at hc
      · exact .inr hc
      · next hv =>
        rcases List.mem_cons.mp hc with h | h
        · exact .inl ⟨h, hv⟩
        · exact .inr h
    · split at hc
      · split at hc
        · exact .inr (List.mem_cons_of_mem _ hc)
        · next hv =>
          rcases List.mem_cons.mp hc with h | h
          · exact .inl ⟨h, hv⟩
          · exact .inr (List.mem_cons_of_mem _ h)
      · rcases List.mem_cons.mp hc with h | h
        · exact .inr (h ▸ List.mem_cons_self)
        · exact (ih h).imp id (List.mem_cons_of_mem _)

/-- A write to a buffer address keeps the canonical form. -/
theorem wf_write {m : Memory} (hm : wf m) {j : Nat} (hj : j < 64) (v : Byte) : wf (write m j v) := by
  induction m with
  | nil =>
    by_cases hv : v = unwritten
    · subst hv; exact hm
    · simp only [write, hv, if_false]
      exact wf_cons.mpr ⟨by simp, ⟨hj, hv⟩, wf_nil⟩
  | cons c m ih =>
    obtain ⟨x, b⟩ := c
    obtain ⟨hlt, hcell, hm'⟩ := wf_cons.mp hm
    simp only [write]
    split
    · next hjx =>
      split
      · exact hm
      · next hv =>
        exact wf_cons.mpr ⟨List.forall_mem_cons.mpr ⟨hjx, fun d hd => Nat.lt_trans hjx (hlt d hd)⟩, ⟨hj, hv⟩, hm⟩
    · split
      · next hjx =>
        subst hjx
        split
        · exact hm'
        · next hv => exact wf_cons.mpr ⟨hlt, ⟨hj, hv⟩, hm'⟩
      · next hnlt hne =>
        refine wf_cons.mpr ⟨fun d hd => ?_, hcell, ih hm'⟩
        rcases mem_write hd with ⟨rfl, -⟩ | h
        · simp only at *; omega
        · exact hlt d h

/-- Writing bytes at buffer addresses keeps the canonical form. -/
theorem wf_writeBytes {m : Memory} (hm : wf m) (bytes : List Byte) :
    ∀ {j : Nat}, j + bytes.length ≤ 64 → wf (writeBytes m j bytes) := by
  induction bytes generalizing m with
  | nil => intro j _; exact hm
  | cons v bytes ih =>
    intro j hj
    simp only [List.length_cons] at hj
    exact ih (wf_write hm (by omega) v) (by omega)

/-- What every address reads as after bytes are written at consecutive buffer addresses. -/
theorem read_writeBytes {m : Memory} (hm : wf m) (bytes : List Byte) :
    ∀ {j : Nat}, j + bytes.length ≤ 64 → ∀ i,
      read (writeBytes m j bytes) i = if j ≤ i ∧ i < j + bytes.length then bytes.getD (i - j) 0 else read m i := by
  induction bytes generalizing m with
  | nil =>
    intro j _ i
    rw [if_neg (by simp only [List.length_nil]; omega)]; rfl
  | cons v bytes ih =>
    intro j hj i
    simp only [List.length_cons] at hj
    rw [writeBytes, ih (wf_write hm (by omega) v) (by omega), read_write hm]
    by_cases hij : i = j
    · subst hij
      rw [if_neg (by omega), if_pos rfl, if_pos (by simp only [List.length_cons]; omega)]
      simp
    · rw [if_neg hij]
      by_cases hin : j + 1 ≤ i ∧ i < j + 1 + bytes.length
      · rw [if_pos hin, if_pos (by simp only [List.length_cons]; omega)]
        rw [show i - j = (i - (j + 1)) + 1 by omega, List.getD_cons_succ]
      · rw [if_neg hin, if_neg (by simp only [List.length_cons]; omega)]

@[simp] theorem length_readBytes (m : Memory) (j n : Nat) : (readBytes m j n).length = n := by
  simp [readBytes]

@[simp] theorem length_block (m : Memory) : (block m).length = 64 := by simp [block]

theorem getD_readBytes (m : Memory) (j n k : Nat) (hk : k < n) :
    (readBytes m j n).getD k 0 = read m (j + k) := by
  simp [readBytes, List.getD_eq_getElem?_getD, hk]

/-- The bytes read are the bytes of the addresses read. -/
theorem readBytes_congr {m m' : Memory} {j n : Nat} (h : ∀ i, j ≤ i → i < j + n → read m i = read m' i) :
    readBytes m j n = readBytes m' j n := by
  simp only [readBytes, List.map_inj_left, List.mem_range']
  rintro a ⟨i, hi, rfl⟩
  exact h _ (by omega) (by omega)

theorem readBytes_add (m : Memory) (j a b : Nat) :
    readBytes m j (a + b) = readBytes m j a ++ readBytes m (j + a) b := by
  simp only [readBytes, ← List.map_append]
  congr 1
  simp

/-- Bytes just written are read back, after what stood below them. -/
theorem readBytes_writeBytes {m : Memory} (hm : wf m) (bytes : List Byte) {j : Nat} (hj : j + bytes.length ≤ 64) :
    readBytes (writeBytes m j bytes) 0 (j + bytes.length) = readBytes m 0 j ++ bytes := by
  rw [readBytes_add]
  congr 1
  · refine readBytes_congr fun i _ hi => ?_
    rw [read_writeBytes hm bytes hj, if_neg (by omega)]
  · apply List.ext_getElem (by simp)
    intro k h1 h2
    have hk : k < bytes.length := h2
    have := getD_readBytes (writeBytes m j bytes) (0 + j) bytes.length k hk
    rw [read_writeBytes hm bytes hj, if_pos (by omega)] at this
    rw [List.getD_eq_getElem _ _ h1] at this
    rw [this, show 0 + j + k - j = k by omega, List.getD_eq_getElem _ _ h2]

/-- Canonical memories that read alike are equal. -/
theorem ext_read {m m' : Memory} (h : wf m) (h' : wf m') (e : ∀ j, read m j = read m' j) : m = m' := by
  induction m generalizing m' with
  | nil =>
    cases m' with
    | nil => rfl
    | cons c m' =>
      have hc := e c.1
      simp only [read, if_true] at hc
      exact absurd hc.symm (wf_cons.mp h').2.1.2
  | cons c m ih =>
    obtain ⟨x, b⟩ := c
    obtain ⟨hl, ⟨-, hb⟩, hm⟩ := wf_cons.mp h
    cases m' with
    | nil =>
      have hx := e x
      simp only [read, if_true] at hx
      exact absurd hx hb
    | cons c' m' =>
      obtain ⟨x', b'⟩ := c'
      obtain ⟨hl', ⟨-, hb'⟩, hm'⟩ := wf_cons.mp h'
      have hxx : x = x' := by
        rcases Nat.lt_trichotomy x x' with hlt | heq | hgt
        · have hx := e x
          rw [read_below (m := (x', b') :: m') (List.forall_mem_cons.mpr ⟨hlt, fun d hd => hlt.trans (hl' d hd)⟩)] at hx
          simp only [read, if_true] at hx
          exact absurd hx hb
        · exact heq
        · have hx := e x'
          rw [read_below (m := (x, b) :: m) (List.forall_mem_cons.mpr ⟨hgt, fun d hd => hgt.trans (hl d hd)⟩)] at hx
          simp only [read, if_true] at hx
          exact absurd hx.symm hb'
      subst hxx
      obtain rfl : b = b' := by simpa [read] using e x
      congr 1
      refine ih hm hm' fun j => ?_
      by_cases hj : j = x
      · subst hj; rw [read_below hl, read_below hl']
      · simpa [read, hj] using e j

end Memory

end Sys2Proof.Machine
end

