-- ==== Sys2Proof/Laws/Ops.lean ====
section
/-! SUPPORT. One lemma per shared operation: sub-steps of a command, performing under the status, COMPRESS, decoding
the head of a stream, and the bytes of BUF that are pending. -/

namespace Sys2Proof.Machine

/-! ## Sub-steps and the status guard -/

theorem State.andThen_operational {s : State} (h : s.status = .operational) (next : State → State) :
    s.andThen next = next s := by simp [State.andThen, h]

theorem State.andThen_faulted {s : State} {r : Fault} (h : s.status = .faulted r) (next : State → State) :
    s.andThen next = s := by simp [State.andThen, h]

theorem perform_operational {s : State} (h : s.status = .operational) (body : State → State) :
    perform body s = .next (body s) := by simp [perform, h]

theorem perform_faulted {s : State} {r : Fault} (h : s.status = .faulted r) (body : State → State) :
    perform body s = .fault r := by simp [perform, h]

/-- The one way a performed command answers a next state. -/
theorem perform_eq_next {s t : State} {body : State → State} :
    perform body s = .next t ↔ s.status = .operational ∧ body s = t := by
  unfold perform
  cases s.status <;> simp

/-- A performed command is never refused. -/
theorem perform_ne_refused {s : State} {body : State → State} {r : Refusal} : perform body s ≠ .refused r := by
  unfold perform
  cases s.status <;> simp

/-! ## COMPRESS -/

theorem compress_full {s : State} (h : s.filled = 64) : compress s = s.setH (cf s.h (Memory.block s.buf)) :=
  if_pos h

theorem compress_notFull {s : State} (h : s.filled ≠ 64) : compress s = s.enterFault (.compressNotFull s.filled) :=
  if_neg h

/-! ## The head of the stream -/

theorem fetch_marked {s : State} {r : Refusal} (h : s.refusal = some r) : fetch s = .settled (.refused r) := by
  simp [fetch, h]

theorem fetch_command {s : State} {i : Instr} {rest : List Byte} (hr : s.refusal = none)
    (hd : decode s.stream = .command i rest) : fetch s = .issue i (s.consume rest) := by
  simp [fetch, hr, hd]

theorem fetch_nothing {s : State} (hr : s.refusal = none) (hd : decode s.stream = .nothing) :
    fetch s = .settled (idle s) := by
  simp [fetch, hr, hd]

theorem fetch_reserved {s : State} {op : Byte} (hr : s.refusal = none) (hd : decode s.stream = .reserved op) :
    fetch s = .settled (.next (s.refuse (.reservedOpcode op s.offset))) := by
  simp [fetch, hr, hd]

theorem fetch_incomplete {s : State} (hr : s.refusal = none) (hd : decode s.stream = .incomplete) :
    fetch s = .settled (.next (s.refuse (.incompleteCommand s.offset))) := by
  simp [fetch, hr, hd]

/-- Everything a step that answers a next state can be. -/
theorem step_cases {s t : State} (h : step s = .next t) :
    s.refusal = none ∧
      ((∃ i rest, decode s.stream = .command i rest ∧ exec i (s.consume rest) = .next t) ∨
        (decode s.stream = .nothing ∧ s.status = .operational ∧ t = s) ∨
        (∃ op, decode s.stream = .reserved op ∧ t = s.refuse (.reservedOpcode op s.offset)) ∨
        (decode s.stream = .incomplete ∧ t = s.refuse (.incompleteCommand s.offset))) := by
  unfold step at h
  cases hr : s.refusal with
  | some r => simp [fetch_marked hr] at h
  | none =>
    refine ⟨rfl, ?_⟩
    cases hd : decode s.stream with
    | nothing =>
      rw [fetch_nothing hr hd] at h
      obtain ⟨hs, ht⟩ := perform_eq_next.mp h
      exact .inr (.inl ⟨rfl, hs, ht.symm⟩)
    | command i rest =>
      rw [fetch_command hr hd] at h
      exact .inl ⟨i, rest, rfl, h⟩
    | reserved op =>
      rw [fetch_reserved hr hd] at h
      exact .inr (.inr (.inl ⟨op, rfl, (Host.Outcome.next.inj h).symm⟩))
    | incomplete =>
      rw [fetch_incomplete hr hd] at h
      exact .inr (.inr (.inr ⟨rfl, (Host.Outcome.next.inj h).symm⟩))

/-! ## Blocks of a byte sequence -/

theorem blocksOf_short {bytes : List Byte} (h : bytes.length < 64) : blocksOf bytes = [] := by
  simp [blocksOf, Nat.div_eq_of_lt h]

theorem leftover_short {bytes : List Byte} (h : bytes.length < 64) : leftover bytes = bytes := by
  simp [leftover, Nat.div_eq_of_lt h]

theorem blocksOf_block_append {block bytes : List Byte} (h : block.length = 64) :
    blocksOf (block ++ bytes) = block :: blocksOf bytes := by
  have hlen : (block ++ bytes).length / 64 = bytes.length / 64 + 1 := by
    rw [List.length_append, h]; omega
  simp only [blocksOf, hlen, List.range_succ_eq_map, List.map_cons, List.map_map]
  congr 1
  · simp [h]
  · refine List.map_congr_left fun k _ => ?_
    simp only [Function.comp]
    rw [List.drop_append, h, List.drop_eq_nil_of_le (by rw [h]; omega), List.nil_append]
    congr 2

theorem leftover_block_append {block bytes : List Byte} (h : block.length = 64) :
    leftover (block ++ bytes) = leftover bytes := by
  have hlen : (block ++ bytes).length / 64 = bytes.length / 64 + 1 := by
    rw [List.length_append, h]; omega
  simp only [leftover, hlen]
  rw [List.drop_append, h, List.drop_eq_nil_of_le (by rw [h]; omega), List.nil_append]
  congr 1

/-! ## Pending bytes -/

@[simp] theorem State.length_pending (s : State) : s.pending.length = s.filled.toNat := by
  simp [State.pending]

@[simp] theorem State.pending_addLength (s : State) (n : Nat) : (s.addLength n).pending = s.pending := rfl

/-- Storing below the end of the buffer and counting the bytes appends them to the pending bytes. -/
theorem State.pending_store {s : State} (hw : Memory.wf s.buf) {bytes : List Byte}
    (h : s.filled.toNat + bytes.length ≤ 64) :
    ((s.store bytes).setFilled (s.filled.toNat + bytes.length)).pending = s.pending ++ bytes := by
  have : (BitVec.ofNat 7 (s.filled.toNat + bytes.length)).toNat = s.filled.toNat + bytes.length := by
    rw [BitVec.toNat_ofNat]; exact Nat.mod_eq_of_lt (by omega)
  simp only [State.pending, State.setFilled_filled, State.setFilled_buf, State.store_buf, this]
  exact Memory.readBytes_writeBytes hw bytes h

/-! ## The session around one engine -/

@[simp] theorem Session.refuse_engine (x : Session) (r : Refusal) : (x.refuse r).engine = x.engine.refuse r := rfl
@[simp] theorem Session.refuse_ports (x : Session) (r : Refusal) : (x.refuse r).ports = x.ports := rfl
@[simp] theorem Session.refuse_inProgress (x : Session) (r : Refusal) : (x.refuse r).inProgress = x.inProgress := rfl

/-- Everything an issue can do: nothing, a refusal mark, or one command taken from the caller's port. -/
theorem Session.issue_cases (x : Session) (c : Nat) :
    x.issue c = x ∨ (∃ r, x.issue c = x.refuse r) ∨
      ∃ p i rest, x.ports[c]? = some p ∧ decode p.stream = .command i rest ∧ x.inProgress = none ∧
        x.issue c = { x with ports := x.ports.set c (p.consume rest), inProgress := some ⟨c, i⟩ } := by
  unfold Session.issue
  split
  · exact .inl rfl
  · next p hp =>
    split
    · exact .inl rfl
    · exact .inr (.inl ⟨_, rfl⟩)
    · exact .inr (.inl ⟨_, rfl⟩)
    · next i rest hd =>
      split
      · exact .inr (.inl ⟨_, rfl⟩)
      · next hn => exact .inr (.inr ⟨p, i, rest, hp, hd, hn, rfl⟩)

/-- Issuing performs nothing: the engine changes in its refusal mark at most. -/
theorem Session.issue_engine (x : Session) (c : Nat) :
    ∃ mark, (x.issue c).engine = { x.engine with refusal := mark } := by
  obtain h | ⟨r, h⟩ | ⟨p, i, rest, -, -, -, h⟩ := x.issue_cases c <;> rw [h]
  exacts [⟨x.engine.refusal, rfl⟩, ⟨some r, rfl⟩, ⟨x.engine.refusal, rfl⟩]

end Sys2Proof.Machine
end

