-- ==== Sys2Proof/Laws/Streaming.lean ====
section
/-! SUPPORT. What the buffering path can do (42_streaming.md R101), said once: what it never touches, that it never
faults, and, from a state of the kind every run is in, its whole result. -/

namespace Sys2Proof.Machine

/-- The state after one turn of the loop: the block is filled and compressed, and FILLED is 0. -/
def afterBlock (data : List Byte) (s : State) : State :=
  (((s.store (data.take (64 - s.filled.toNat))).setFilled 64).setH
    (cf s.h (Memory.block (s.store (data.take (64 - s.filled.toNat))).buf))).setFilled 0

/-- One turn of the loop that completes a block: COMPRESS is entered with FILLED = 64, so it does not fault. -/
theorem bufferLoop_block (turns : Nat) {data : List Byte} {s : State} (hs : s.status = .operational)
    (h : s.completesBlock data.length) :
    bufferLoop (turns + 1) data s =
      bufferLoop turns (data.drop (64 - s.filled.toNat)) (afterBlock data s) := by
  simp only [bufferLoop, if_pos h]
  rw [compress_full rfl, State.andThen_operational (by simpa using hs)]
  rfl

/-- The last turn: the bytes that are left do not complete a block. -/
theorem bufferLoop_tail (turns : Nat) {data : List Byte} {s : State} (h : ¬ s.completesBlock data.length) :
    bufferLoop (turns + 1) data s = (s.store data).setFilled (s.filled.toNat + data.length) := by
  simp only [bufferLoop, if_neg h]

/-- What the buffering path leaves alone, from every operational state; in particular it does not fault. -/
structure BufferFrame (s t : State) : Prop where
  status : t.status = .operational
  totalLen : t.totalLen = s.totalLen
  refusal : t.refusal = s.refusal
  stream : t.stream = s.stream
  offset : t.offset = s.offset
  responses : t.responses = s.responses

theorem bufferLoop_frame (turns : Nat) :
    ∀ (data : List Byte) (s : State), s.status = .operational → BufferFrame s (bufferLoop turns data s) := by
  induction turns with
  | zero => exact fun _ s hs => ⟨hs, rfl, rfl, rfl, rfl, rfl⟩
  | succ turns ih =>
    intro data s hs
    by_cases h : s.completesBlock data.length
    · rw [bufferLoop_block turns hs h]
      obtain ⟨h1, h2, h3, h4, h5, h6⟩ := ih (data.drop (64 - s.filled.toNat)) (afterBlock data s) hs
      exact ⟨h1, h2, h3, h4, h5, h6⟩
    · rw [bufferLoop_tail turns h]
      exact ⟨hs, rfl, rfl, rfl, rfl, rfl⟩

theorem buffer_frame (data : List Byte) {s : State} (hs : s.status = .operational) :
    BufferFrame s (buffer data s) :=
  bufferLoop_frame _ data s hs

/-- The whole result of the buffering path: the completed blocks are compressed in order, the rest is pending. -/
structure BufferResult (data : List Byte) (s t : State) : Prop where
  h : t.h = hashBlocks s.h (blocksOf (s.pending ++ data))
  pending : t.pending = leftover (s.pending ++ data)
  filled : t.filled.toNat = (s.filled.toNat + data.length) % 64
  buf : Memory.wf t.buf

theorem bufferLoop_result (turns : Nat) :
    ∀ (data : List Byte) (s : State), data.length + 1 ≤ turns → s.status = .operational → s.filled.toNat ≤ 63 →
      Memory.wf s.buf → BufferResult data s (bufferLoop turns data s) := by
  induction turns with
  | zero => intro data s hturns; omega
  | succ turns ih =>
    intro data s hturns hs hf hw
    by_cases h : s.completesBlock data.length
    · have hlen : s.filled.toNat + (data.take (64 - s.filled.toNat)).length = 64 := by
        simp only [List.length_take]
        have : 64 ≤ s.filled.toNat + data.length := h
        omega
      have hblock : Memory.block (s.store (data.take (64 - s.filled.toNat))).buf =
          s.pending ++ data.take (64 - s.filled.toNat) := by
        have := Memory.readBytes_writeBytes hw (data.take (64 - s.filled.toNat)) (Nat.le_of_eq hlen)
        rw [hlen] at this
        exact this
      have hsplit : s.pending ++ data =
          (s.pending ++ data.take (64 - s.filled.toNat)) ++ data.drop (64 - s.filled.toNat) := by
        rw [List.append_assoc, List.take_append_drop]
      have hb : (s.pending ++ data.take (64 - s.filled.toNat)).length = 64 := by
        rw [List.length_append, State.length_pending]; exact hlen
      rw [bufferLoop_block turns hs h]
      have h64 : 64 ≤ s.filled.toNat + data.length := h
      obtain ⟨r1, r2, r3, r4⟩ := ih (data.drop (64 - s.filled.toNat))
        (afterBlock data s) (by simp only [List.length_drop]; omega) hs (by simp [afterBlock])
        (Memory.wf_writeBytes hw _ (Nat.le_of_eq hlen))
      have hnil : (afterBlock data s).pending = [] := rfl
      rw [hnil, List.nil_append] at r1 r2
      refine ⟨?_, ?_, ?_, r4⟩
      · rw [r1, hsplit, blocksOf_block_append hb]
        simp only [afterBlock, State.setFilled_h, State.setH_h, hblock, hashBlocks, List.foldl_cons]
      · rw [r2, hsplit, leftover_block_append hb]
      · rw [r3]
        simp only [afterBlock, State.setFilled_filled, List.length_drop]
        simp only [BitVec.toNat_ofNat, Nat.zero_mod]
        omega
    · rw [bufferLoop_tail turns h]
      have hlt : s.filled.toNat + data.length < 64 := by
        have : ¬ 64 ≤ s.filled.toNat + data.length := h
        omega
      have hshort : (s.pending ++ data).length < 64 := by
        rw [List.length_append, State.length_pending]; exact hlt
      refine ⟨?_, ?_, ?_, Memory.wf_writeBytes hw data (Nat.le_of_lt hlt)⟩
      · rw [blocksOf_short hshort]; rfl
      · rw [leftover_short hshort, State.pending_store hw (Nat.le_of_lt hlt)]
      · rw [State.setFilled_filled, BitVec.toNat_ofNat, Nat.mod_eq_of_lt (by omega), Nat.mod_eq_of_lt hlt]

/-- The result of BUFFER from every state of the kind a run is in. -/
theorem buffer_result (data : List Byte) {s : State} (hs : s.status = .operational) (hf : s.filled.toNat ≤ 63)
    (hw : Memory.wf s.buf) : BufferResult data s (buffer data s) :=
  bufferLoop_result _ data s (by omega) hs hf hw

/-- UPDATE that does not overflow the counter absorbs, whatever `LEN_OVERFLOW` is. -/
theorem absorb_fits (policy : LenOverflow) {data : List Byte} {s : State} (h : ¬ s.lengthOverflows data.length) :
    absorb policy data s = buffer data (s.addLength data.length) := by
  simp only [absorb, h, false_and, if_false]

theorem absorb_wrap (data : List Byte) (s : State) :
    absorb .wrap data s = buffer data (s.addLength data.length) := by
  simp [absorb]

theorem absorb_fault {data : List Byte} {s : State} (h : s.lengthOverflows data.length) :
    absorb .fault data s = s.enterFault (.lengthOverflow s.filled) := by
  simp only [absorb, h, true_and, if_true]

/-- An operational UPDATE that takes no overflow fault counts its bytes and buffers them. -/
theorem exec_update_absorbs {data : List Byte} {s : State} (hs : s.status = .operational)
    (h : Config.lenOverflow = .fault → s.totalLen.toNat + data.length ≤ 2 ^ 64 - 1) :
    exec (.update data) s = .next (buffer data (s.addLength data.length)) := by
  refine (perform_operational hs _).trans ?_
  cases hp : Config.lenOverflow with
  | wrap => rw [absorb_wrap]
  | fault => rw [absorb_fits _ (Nat.not_lt.mpr (h hp))]

/-- Buffering and counting do not interfere. -/
theorem bufferLoop_addLength (turns n : Nat) :
    ∀ (data : List Byte) (s : State), s.status = .operational →
      (bufferLoop turns data s).addLength n = bufferLoop turns data (s.addLength n) := by
  induction turns with
  | zero => exact fun _ _ _ => rfl
  | succ turns ih =>
    intro data s hs
    by_cases h : s.completesBlock data.length
    · rw [bufferLoop_block turns hs h, bufferLoop_block turns (s := s.addLength n) hs h]
      exact ih _ (afterBlock data s) hs
    · rw [bufferLoop_tail turns h, bufferLoop_tail turns (s := s.addLength n) h]
      rfl

end Sys2Proof.Machine
end

