-- ==== Sys2Proof/Laws/Commands.lean ====
section
/-! SUPPORT. What a whole command can do: DIGEST as one chain of sub-steps, and what no command touches. -/

namespace Sys2Proof.Machine

theorem padOverflowBlock_status {s : State} (hs : s.status = .operational) :
    (padOverflowBlock s).status = .operational := by
  unfold padOverflowBlock
  split
  · exact (buffer_frame _ hs).status
  · exact hs

/-- DIGEST takes no fault, so its sub-steps follow one another (43_finalize.md R105). -/
theorem finalizeMessage_operational {s : State} (hs : s.status = .operational) :
    finalizeMessage s =
      finish (buffer (lengthField s.totalLen) (padToLength (padOverflowBlock (padMark s)))) := by
  have h2 : (padMark s).status = .operational := (buffer_frame _ hs).status
  have h3 := padOverflowBlock_status h2
  have h4 : (padToLength (padOverflowBlock (padMark s))).status = .operational := (buffer_frame _ h3).status
  simp only [finalizeMessage]
  rw [State.andThen_operational h2, State.andThen_operational h3, State.andThen_operational h4,
    State.andThen_operational (buffer_frame _ h4).status]

/-- What no command changes: the run's mark and the caller's stream. -/
structure CommandFrame (s t : State) : Prop where
  refusal : t.refusal = s.refusal
  stream : t.stream = s.stream
  offset : t.offset = s.offset

theorem BufferFrame.command {s t : State} (h : BufferFrame s t) : CommandFrame s t := ⟨h.refusal, h.stream, h.offset⟩

theorem CommandFrame.trans {s t u : State} (h : CommandFrame s t) (h' : CommandFrame t u) : CommandFrame s u :=
  ⟨h'.refusal.trans h.refusal, h'.stream.trans h.stream, h'.offset.trans h.offset⟩

theorem absorb_frame (policy : LenOverflow) (data : List Byte) {s : State} (hs : s.status = .operational) :
    CommandFrame s (absorb policy data s) := by
  unfold absorb
  split
  · exact ⟨rfl, rfl, rfl⟩
  · have h := buffer_frame data (s := s.addLength data.length) hs
    exact ⟨h.refusal, h.stream, h.offset⟩

theorem padOverflowBlock_frame {s : State} (hs : s.status = .operational) :
    CommandFrame s (padOverflowBlock s) := by
  unfold padOverflowBlock
  split
  · exact (buffer_frame _ hs).command
  · exact ⟨rfl, rfl, rfl⟩

theorem finish_frame (s : State) : CommandFrame s (finish s) := ⟨rfl, rfl, rfl⟩

theorem finalizeMessage_frame {s : State} (hs : s.status = .operational) : CommandFrame s (finalizeMessage s) := by
  have h2 : BufferFrame s (padMark s) := buffer_frame _ hs
  have h3 := padOverflowBlock_status h2.status
  have h4 : BufferFrame (padOverflowBlock (padMark s)) (padToLength (padOverflowBlock (padMark s))) :=
    buffer_frame _ h3
  rw [finalizeMessage_operational hs]
  exact (((h2.command.trans (padOverflowBlock_frame h2.status)).trans h4.command).trans
    (buffer_frame _ h4.status).command).trans (finish_frame _)

/-- Every command leaves the run's mark and the stream alone. -/
theorem exec_frame {i : Instr} {s t : State} (h : exec i s = .next t) : CommandFrame s t := by
  cases i with
  | new =>
    obtain ⟨-, rfl⟩ := perform_eq_next.mp h
    exact ⟨rfl, rfl, rfl⟩
  | update data =>
    obtain ⟨hs, rfl⟩ := perform_eq_next.mp h
    exact absorb_frame _ _ hs
  | digest =>
    obtain ⟨hs, rfl⟩ := perform_eq_next.mp h
    exact finalizeMessage_frame hs

end Sys2Proof.Machine
end

