-- ==== Sys2Proof/Laws/PerInstr.lean ====
section
/-! SUPPORT. A per-instruction family about commands as syntax: the encoding of each has its opcode byte first and the
length its format gives it (30_encoding.md R50, R52). -/

namespace Sys2Proof.Laws.Format

/-- The encoding begins with the command's opcode byte and has the command's length. -/
def Statement (i : Instr) : Prop :=
  (encode i).head? = some (opcode i) ∧ (encode i).length = encodedLength i

theorem new : Statement .new := ⟨rfl, rfl⟩

theorem update (data : List Byte) : Statement (.update data) := by
  refine ⟨rfl, ?_⟩
  simp [encode, operandBytes, encodedLength, be64Bytes]
  omega

theorem digest : Statement .digest := ⟨rfl, rfl⟩

end Sys2Proof.Laws.Format
end

