-- ==== Sys2Proof/Tests/Slice0.lean ====
section
/-! SUPPORT. The model's own tests. Expected results are from spec/95_test_vectors.md or from the examples of the rules
named in the comments; the states are built by `engineAt`. The last part shows, for every statement with hypotheses, a
state and operands that meet them. -/

namespace Sys2Proof.Tests

open Sys2Proof.Machine

/-- An operational engine with `filled` bytes of 0x61 pending out of `total` absorbed, `H = IV`. -/
def engineAt (filled total : Nat) : State :=
  { State.reset with
    buf := Memory.writeBytes [] 0 (List.replicate filled 0x61#8)
    filled := BitVec.ofNat 7 filled
    totalLen := BitVec.ofNat 64 total }

/-- The same engine with a fault taken. -/
def faultedAt (filled total : Nat) : State := (engineAt filled total).enterFault (.lengthOverflow (BitVec.ofNat 7 filled))

/-- FILLED and TOTAL_LEN of the next state. -/
def counters (o : Host.Outcome State Fault Refusal) : Option (Nat × Nat) :=
  (nextState? o).map fun t => (t.filled.toNat, t.totalLen.toNat)

/-! ## Well-formedness smoke -/

theorem test_illFormed_payloadTooLong :
    (Instr.update (List.replicate (2 ^ 64) 0x00#8)).illFormed = some .payloadTooLong := by
  simp only [Instr.illFormed, List.length_replicate]
  decide

theorem test_wellFormed_all : Instr.new.WellFormed ∧ (Instr.update [0x61]).WellFormed ∧ Instr.digest.WellFormed := by
  decide

/-! ## Decoding and encoding (30_encoding.md R50, R52; 95_test_vectors.md section 6) -/

theorem test_decode_new : decode [0b00000000, 0x02] = .command .new [0x02] := by decide

theorem test_decode_digest : decode [0b00000010] = .command .digest [] := by decide

theorem test_decode_update_abc :
    decode [0b00000001, 0, 0, 0, 0, 0, 0, 0, 3, 0x61, 0x62, 0x63, 0x02] =
      .command (.update [0x61, 0x62, 0x63]) [0x02] := by decide

theorem test_decode_update_256 :
    decode ([0x01, 0, 0, 0, 0, 0, 0, 1, 0] ++ List.replicate 256 0) = .command (.update (List.replicate 256 0)) [] := by
  decide +kernel

theorem test_decode_refusals :
    decode [0x03] = .reserved 0x03 ∧ decode [0xff, 0x02] = .reserved 0xff ∧ decode [0x01, 0, 0, 0] = .incomplete ∧
      decode [0x01, 0, 0, 0, 0, 0, 0, 0, 5, 0x61, 0x62] = .incomplete := by decide

theorem test_encode :
    encode (.update [0x80, 0x00]) = [0x01, 0, 0, 0, 0, 0, 0, 0, 2, 0x80, 0x00] ∧ encode .new = [0x00] ∧
      encode .digest = [0x02] := by decide

theorem test_table_words :
    decodeTableWord 8 0 = some .new ∧ decodeTableWord 8 1 = some (.update []) ∧ decodeTableWord 8 2 = some .digest ∧
      decodeTableWord 8 3 = none := by decide

/-- 30_encoding.md R55, worked example. -/
theorem test_assemble_text :
    assembleText "UPDATE \"abc\" ; one line\nDIGEST\n\nNEW".toList =
      some [0x01, 0, 0, 0, 0, 0, 0, 0, 3, 0x61, 0x62, 0x63, 0x02, 0x00] := by decide

/-- 30_encoding.md R55: the pseudo-instruction, a repeated byte, the empty payload. -/
theorem test_assemble_hash :
    (parseProgram "HASH 0x61*3".toList).map expandProgram = some [.new, .update [0x61, 0x61, 0x61], .digest] ∧
      assembleText "UPDATE \"\"".toList = some [0x01, 0, 0, 0, 0, 0, 0, 0, 0] ∧
      parseProgram "UPDATE".toList = none := by decide

/-! ## Word functions and the mixer (95_test_vectors.md section 3) -/

theorem test_rotr : rotr 0x80000000 31 = 0x00000001 ∧ rotr 0x00000001 25 = 0x00000080 := by decide

theorem test_shr : shr 0x12345678 3 = 0x02468acf ∧ shr 0x00000007 3 = 0 := by decide

theorem test_sigmas_80000000 :
    smallSigma0 0x80000000 = 0x11002000 ∧ smallSigma1 0x80000000 = 0x00205000 ∧
      bigSigma0 0x80000000 = 0x20040200 ∧ bigSigma1 0x80000000 = 0x02100040 := by decide

theorem test_ch_maj :
    ch 0xffffffff 0x12345678 0x9abcdef0 = 0x12345678 ∧ maj 0xffffffff 0 0x12345678 = 0x12345678 := by decide

theorem test_be32 : be32 [0x61, 0x62, 0x63, 0x80] 0 = 0x61626380 := by decide

/-- Section 3.4, the 0xff block. -/
theorem test_schedule_ff_block : (expand (List.replicate 64 0xff)).getD 63 0 = 0x4bceaf09 := by decide +kernel

/-- Section 3.4. -/
theorem test_cf_ff_block :
    cf IV (List.replicate 64 0xff) =
      ⟨0xef0c748d, 0xf4da50a8, 0xd6c43c01, 0x3edc3ce7, 0x6c9d9fa9, 0xa1458ade, 0x56eb86c0, 0xa64492d2⟩ := by
  decide +kernel

/-- Section 3.4: every input zero. -/
theorem test_cf_zero :
    cf ⟨0, 0, 0, 0, 0, 0, 0, 0⟩ (List.replicate 64 0x00) =
      ⟨0x7ca51614, 0x425c3ba8, 0xce54dd2f, 0xc2020ae7, 0xb6e574d1, 0x98136d0f, 0xae7e26cc, 0xbf0be7a6⟩ := by
  decide +kernel

/-- Section 7: COMPRESS entered by hand with FILLED = 63. -/
theorem test_compress_notFull :
    compress (engineAt 63 63) = { engineAt 63 63 with status := .faulted (.compressNotFull 63) } := by decide

theorem test_format :
    format ⟨0x01234567, 0x89abcdef, 0xfedcba98, 0x76543210, 0x00000000, 0xffffffff, 0x80000000, 0x00000001⟩ =
      "0123456789abcdeffedcba987654321000000000ffffffff8000000000000001".toList := by decide

/-! ## Commands -/

/-- Section 8, P5: NEW discards a partial message. -/
theorem test_new_discards : nextState? (exec .new (engineAt 3 3)) = some State.reset := by decide

/-- Section 7: NEW while faulted has no step. -/
theorem test_new_faulted : (nextState? (exec .new (faultedAt 3 3))).isNone = true := by decide

/-- Section 4.2. -/
theorem test_update_fill_counts :
    counters (exec (.update (List.replicate 10 0x00)) (engineAt 60 60)) = some (6, 70) ∧
      counters (exec (.update [0x61]) (engineAt 63 63)) = some (0, 64) ∧
      counters (exec (.update (List.replicate 63 0x61)) (engineAt 0 0)) = some (63, 63) := by decide +kernel

/-- Section 1.5: 64 bytes of 0x61 compress within the UPDATE. -/
theorem test_update_block :
    (nextState? (exec (.update (List.replicate 61 0x61)) (engineAt 3 3))).map (fun t => t.h) =
      some ⟨0xdf5bb81c, 0xe81e0626, 0xfb45a894, 0x4fd40f31, 0xb25e6816, 0xd6d499c1, 0xab904929, 0x00635e66⟩ := by
  decide +kernel

/-- Section 4.2, the counter at its limit, under both values of the parameter. -/
theorem test_update_at_limit :
    (absorb .wrap [0x61, 0x61] (engineAt 62 (2 ^ 64 - 2))).totalLen = 0 ∧
      absorb .fault [0x61, 0x61] (engineAt 62 (2 ^ 64 - 2)) =
        { engineAt 62 (2 ^ 64 - 2) with status := .faulted (.lengthOverflow 62) } ∧
      counters (exec (.update [0x61]) (engineAt 62 (2 ^ 64 - 2))) = some (63, 2 ^ 64 - 1) := by decide +kernel

/-- Section 1.1. -/
theorem test_digest_empty :
    (nextState? (exec .digest State.reset)).map (fun t => t.responses) =
      some [asciiBytes "e3b0c44298fc1c149afbf4c8996fb92427ae41e4649b934ca495991b7852b855".toList] := by decide +kernel

/-- Section 4.4: 56 bytes, so two blocks, one of them by the zero fill of step 3. -/
theorem test_digest_56 :
    (nextState? (exec .digest (engineAt 56 56))).map (fun t => t.responses) =
      some [asciiBytes "b35439a4ac6f0948b6d6f9e3c6af0f5f590ce20f1bde7090ef7970686ec6738a".toList] := by decide +kernel

/-! ## Steps -/

/-- Section 8, P7, the step at the reserved byte. -/
theorem test_step_reserved :
    (nextState? (step { engineAt 1 1 with stream := [0x07, 0x02], offset := 11 })).map (fun t => (t.refusal, t.filled)) =
      some (some (.reservedOpcode 0x07 11), 1) := by decide

/-- Section 7, truncated payload: no byte is absorbed. -/
theorem test_step_truncated :
    (nextState? (step { State.reset with stream := [0x01, 0, 0, 0, 0, 0, 0, 0, 5, 0x61, 0x62] })).map
      (fun t => (t.refusal, t.totalLen)) = some (some (.incompleteCommand 0), 0) := by decide

/-- The table's rows run as the first instruction after reset. -/
theorem test_step_table_words :
    ((nextState? (step (State.reset.withFetchWord 8 0))).map fun t => t.stream) = some [] ∧
      ((nextState? (step (State.reset.withFetchWord 8 1))).map fun t => t.offset) = some 9 ∧
      ((nextState? (step (State.reset.withFetchWord 8 2))).map fun t => t.responses.length) = some 1 := by
  decide +kernel

/-! ## Witnesses: a state and operands for the hypotheses of each statement, at the edges of its clauses -/

/-- The hypotheses most statements about a running engine share: NEW and DIGEST results, UPDATE, the forms of BUFFER,
chunking, H, idempotency, the padded blocks. -/
def Running (s : State) : Prop :=
  s.status = .operational ∧ s.filled.toNat ≤ 63 ∧ s.BufInv ∧ s.FillInv

theorem running_reset : Running State.reset := by
  unfold Running State.BufInv State.FillInv; decide

theorem running_55 : Running (engineAt 55 119) := by
  unfold Running State.BufInv State.FillInv; decide +kernel

theorem running_56 : Running (engineAt 56 120) := by
  unfold Running State.BufInv State.FillInv; decide +kernel

theorem running_63 : Running (engineAt 63 127) := by
  unfold Running State.BufInv State.FillInv; decide +kernel

theorem running_top : Running (engineAt 63 (2 ^ 64 - 1)) := by
  unfold Running State.BufInv State.FillInv; decide +kernel

/-- NewAndDigestEndInInitialState, SecondDigestIsOfEmptyMessage, HashOfAbc, FaultedEngineHasNoStep (second clause),
OnlyDigestResponds. -/
theorem test_hyp_operational : (engineAt 63 127).status = .operational := rfl

/-- NewLoadsInitialStateOnly. -/
theorem test_hyp_NewLoadsInitialStateOnly :
    (State.reset.status = .operational ∧ State.reset.BufInv ∧ State.reset.Initial) ∧
      (faultedAt 3 3).status = .faulted (.lengthOverflow 3) :=
  ⟨⟨rfl, running_reset.2.2.1, ⟨rfl, fun _ _ => rfl, rfl, rfl⟩⟩, rfl⟩

/-- UpdateAbsorbsItsBytes and UpdateStoresOnlyItsBytes: one byte completes a block; the counter reaches 2^64 - 1. -/
theorem test_hyp_UpdateAbsorbsItsBytes :
    Running (engineAt 63 127) ∧
      (Config.lenOverflow = .fault → (engineAt 63 127).totalLen.toNat + [0x61#8].length ≤ 2 ^ 64 - 1) ∧
      (Config.lenOverflow = .fault → (engineAt 62 (2 ^ 64 - 2)).totalLen.toNat + [0x61#8].length ≤ 2 ^ 64 - 1) :=
  ⟨running_63, fun _ => by decide, fun _ => by decide⟩

/-- UpdateStoresOnlyItsBytes: of 64 bytes the first is still the last to go to its address; of one byte no address but
63 is stored to. -/
theorem test_hyp_UpdateStoresOnlyItsBytes :
    Running (engineAt 63 127) ∧
      (Config.lenOverflow = .fault →
        (engineAt 63 127).totalLen.toNat + (List.replicate 64 0x61#8).length ≤ 2 ^ 64 - 1) ∧
      (0 < (List.replicate 64 0x61#8).length ∧ (List.replicate 64 0x61#8).length ≤ 0 + 64) ∧
      (∀ k < [0x61#8].length, bufferAddress (engineAt 63 127).filled.toNat k ≠ 0) :=
  ⟨running_63, fun _ => by decide, by decide, by decide⟩

/-- LengthOverflowIsCheckedFirst and ChecksComeInOrder: just inside and just past the limit. -/
theorem test_hyp_LengthOverflowIsCheckedFirst :
    ((engineAt 62 (2 ^ 64 - 2)).status = .operational ∧ (engineAt 62 (2 ^ 64 - 2)).totalLen.toNat + 1 ≤ 2 ^ 64 - 1) ∧
      2 ^ 64 - 1 < (engineAt 62 (2 ^ 64 - 2)).totalLen.toNat + [0x61#8, 0x61].length := by decide

/-- PhaseFollowsEveryCommand: FILLED + n at 63, at 64 and at 65, and a faulted engine. -/
theorem test_hyp_PhaseFollowsEveryCommand :
    (Running (engineAt 55 119) ∧ (engineAt 55 119).filled.toNat + (List.replicate 8 0x61#8).length < 64 ∧
      (Config.lenOverflow = .fault →
        (engineAt 55 119).totalLen.toNat + (List.replicate 8 0x61#8).length ≤ 2 ^ 64 - 1)) ∧
      (Running (engineAt 63 127) ∧ 64 ≤ (engineAt 63 127).filled.toNat + [0x61#8].length ∧
        ((engineAt 63 127).filled.toNat + [0x61#8].length) % 64 = 0) ∧
      (Running (engineAt 63 127) ∧ 64 ≤ (engineAt 63 127).filled.toNat + [0x61#8, 0x62].length ∧
        ((engineAt 63 127).filled.toNat + [0x61#8, 0x62].length) % 64 ≠ 0 ∧ [0x61#8, 0x62] ≠ [] ∧
        (Config.lenOverflow = .fault → (engineAt 63 127).totalLen.toNat + [0x61#8, 0x62].length ≤ 2 ^ 64 - 1)) ∧
      (faultedAt 3 3).status = .faulted (.lengthOverflow 3) :=
  ⟨⟨running_55, by decide, fun _ => by decide⟩, ⟨running_63, by decide, by decide⟩,
    ⟨running_63, by decide, by decide, by decide, fun _ => by decide⟩, rfl⟩

/-- BlockFormEqualsByteForm: the three hypotheses. -/
theorem test_hyp_BlockFormEqualsByteForm :
    (engineAt 63 127).status = .operational ∧ (engineAt 63 127).filled.toNat ≤ 63 ∧ (engineAt 63 127).BufInv :=
  ⟨running_63.1, running_63.2.1, running_63.2.2.1⟩

/-- ChunkingDoesNotMatter and IdempotencyOfCommands. -/
theorem test_hyp_ChunkingDoesNotMatter :
    Running (engineAt 63 127) ∧
      (Config.lenOverflow = .fault →
        (engineAt 63 127).totalLen.toNat + [0x61#8].length + [0x62#8, 0x63].length ≤ 2 ^ 64 - 1) ∧
      (Config.lenOverflow = .fault →
        (engineAt 63 127).totalLen.toNat + ([[0x61#8], [], [0x62, 0x63]] : List (List Byte)).flatten.length ≤
          2 ^ 64 - 1) :=
  ⟨running_63, fun _ => by decide, fun _ => by decide⟩

/-- RunningStateChangesOnlyAtCompressionOrLoad: a command that changes H. -/
theorem test_hyp_RunningStateChangesOnlyAtCompressionOrLoad :
    ∃ t, Running (engineAt 63 63) ∧ exec (.update [0x61]) (engineAt 63 63) = .next t ∧ t.h ≠ (engineAt 63 63).h := by
  refine ⟨buffer [0x61] ((engineAt 63 63).addLength 1), ?_, exec_update_absorbs rfl (fun _ => by decide), ?_⟩
  · unfold Running State.BufInv State.FillInv; decide +kernel
  · decide +kernel

/-- DigestCompressesFinalBlocks: one block at 55, two at 56 and at 63. -/
theorem test_hyp_DigestCompressesFinalBlocks :
    (Running (engineAt 55 119) ∧ (engineAt 55 119).totalLen.toNat % 64 ≤ 55) ∧
      (Running (engineAt 56 120) ∧ ¬ (engineAt 56 120).totalLen.toNat % 64 ≤ 55) ∧ Running (engineAt 63 127) :=
  ⟨⟨running_55, by decide⟩, ⟨running_56, by decide⟩, running_63⟩

/-- LengthFieldIsBigEndianBitLength: the edge of the exact bit length. -/
theorem test_hyp_LengthFieldIsBigEndianBitLength : (BitVec.ofNat 64 (2 ^ 61 - 1) : Word64).toNat < 2 ^ 61 := by decide

/-- EngineComputesMessageDigest. -/
theorem test_hyp_EngineComputesMessageDigest :
    (engineAt 3 3).status = .operational ∧
      (Config.lenOverflow = .fault → ([[0x61#8], []] : List (List Byte)).flatten.length ≤ 2 ^ 64 - 1) :=
  ⟨rfl, fun _ => by decide⟩

/-- EngineSimulatesMessageMachine: a state that has absorbed 63 bytes, and one more to absorb. -/
theorem test_hyp_EngineSimulatesMessageMachine :
    (engineAt 63 63).status = .operational ∧ (engineAt 63 63).Absorbed (List.replicate 63 0x61) ∧
      (Config.lenOverflow = .fault → (engineAt 63 63).totalLen.toNat + [0x61#8].length ≤ 2 ^ 64 - 1) := by
  refine ⟨rfl, ⟨by decide +kernel, by decide +kernel, by decide, by decide, ?_⟩, fun _ => by decide⟩
  unfold State.BufInv; decide +kernel

/-- CompressNotFullIsUnreachable: the edges of "not 64", and a step from a state without the fault. -/
theorem test_hyp_CompressNotFullIsUnreachable :
    (engineAt 63 63).filled ≠ 64 ∧ (BitVec.ofNat 7 65 : BitVec 7) ≠ 64 ∧ (engineAt 3 3).NoCompressFault ∧
      (faultedAt 3 3).NoCompressFault ∧ ∃ t, exec .new (engineAt 3 3) = .next t ∧ step (engineAt 3 3) = .next (engineAt 3 3) := by
  refine ⟨by decide, by decide, fun n => ?_, fun n => ?_, _, rfl, rfl⟩
  · simp [engineAt, State.reset]
  · simp [faultedAt]

/-- FaultedEngineHasNoStep: a faulted engine, with a step that only marks a refusal. -/
theorem test_hyp_FaultedEngineHasNoStep :
    (faultedAt 3 3).status = .faulted (.lengthOverflow 3) ∧
      ∃ t, step { faultedAt 3 3 with stream := [0x03] } = .next t :=
  ⟨rfl, _, rfl⟩

/-- RefusedCommandsMarkTheRun and ChecksComeInOrder: the reserved edge 0x03, a payload one byte short, a marked run. -/
theorem test_hyp_RefusedCommandsMarkTheRun :
    ((engineAt 1 1).refusal = none ∧ decode [0x03, 0x02] = .reserved 0x03) ∧
      decode ([0x01, 0, 0, 0, 0, 0, 0, 0, 1]) = .incomplete ∧
      ((engineAt 1 1).refuse (.reservedOpcode 0x03 0)).refusal = some (.reservedOpcode 0x03 0) := by decide

/-- A session with a command in progress: caller 0 has a whole NEW at offset 2, caller 1 a reserved byte at offset 5,
caller 2 a truncated UPDATE. -/
def busySession (s : State) : Session := ⟨s, [⟨[0x00], 2⟩, ⟨[0x03, 0x00], 5⟩, ⟨[0x01, 0x00], 7⟩], some ⟨0, .digest⟩⟩

/-- R134: the decoder's refusals come before ConcurrentInvocation, which a whole command issued then gets. -/
theorem test_decode_before_concurrency :
    ((busySession State.reset).issue 0).engine.refusal = some .concurrentInvocation ∧
      ((busySession State.reset).issue 1).engine.refusal = some (.reservedOpcode 0x03 5) ∧
      ((busySession State.reset).issue 2).engine.refusal = some (.incompleteCommand 7) := by decide

/-- R134 order 3 behind order 2: on a faulted engine the command in progress completes with the fault. -/
theorem test_session_faulted_completes_with_fault :
    (busySession (faultedAt 3 3)).accept .complete = .fault (.lengthOverflow 3) := rfl

/-- ChecksComeInOrder: faulted with a reserved byte, with a truncated command, with a command in progress, and at the
counter's limit; and callers with a reserved byte, a truncated command and a whole command. -/
theorem test_hyp_ChecksComeInOrder :
    ((faultedAt 3 3).status = .faulted (.lengthOverflow 3) ∧ (faultedAt 3 3).refusal = none) ∧
      decode [0x03] = .reserved 0x03 ∧ decode [0x01] = .incomplete ∧
      ((busySession (faultedAt 3 3)).engine.status = .faulted (.lengthOverflow 3) ∧
        (busySession (faultedAt 3 3)).engine.refusal = none ∧
        (busySession (faultedAt 3 3)).inProgress = some ⟨0, .digest⟩) ∧
      ((busySession (faultedAt 3 3)).ports[0]? = some ⟨[0x00], 2⟩ ∧ decode [0x00] = .command .new []) ∧
      ((busySession (faultedAt 3 3)).ports[1]? = some ⟨[0x03, 0x00], 5⟩ ∧ decode [0x03, 0x00] = .reserved 0x03) ∧
      ((busySession (faultedAt 3 3)).ports[2]? = some ⟨[0x01, 0x00], 7⟩ ∧ decode [0x01, 0x00] = .incomplete) ∧
      2 ^ 64 - 1 < (faultedAt 62 (2 ^ 64 - 2)).totalLen.toNat + [0x61#8, 0x61].length := by decide

/-- ConcurrentInvocationIsRefused: the last caller of two, with a whole NEW and more behind it. -/
theorem test_hyp_ConcurrentInvocationIsRefused :
    (engineAt 3 3).refusal = none ∧ ([⟨[], 0⟩, ⟨[0x00, 0x02], 4⟩] : List Port)[1]? = some ⟨[0x00, 0x02], 4⟩ ∧
      decode [0x00, 0x02] = .command .new [0x02] ∧ ∃ t, exec .new (engineAt 3 3) = .next t :=
  ⟨rfl, rfl, by decide, _, rfl⟩

/-- EnginesAreIndependent: two engines, one of which has a step. -/
theorem test_hyp_EnginesAreIndependent :
    (0 : Nat) ≠ 1 ∧ ([engineAt 0 0, engineAt 3 3] : Bank)[1]? = some (engineAt 3 3) ∧
      step (engineAt 3 3) = .next (engineAt 3 3) := ⟨by decide, rfl, rfl⟩

/-- StepRunsDecodedCommand, DecodeEncodeRoundTrip, EncodeDecodeRoundTrip. -/
theorem test_hyp_StepRunsDecodedCommand :
    (engineAt 0 0).refusal = none ∧ decode [0x02, 0x00] = .command .digest [0x00] ∧
      (Instr.update [0x61]).WellFormed ∧
      ([0x01, 0, 0, 0, 0, 0, 0, 0, 1, 0x61, 0x02] : List Byte) = encode (.update [0x61]) ++ [0x02] ∧
      (engineAt 0 0).stream = [] := by decide

/-- StreamRunsItsCommands. -/
theorem test_hyp_StreamRunsItsCommands :
    (∀ i ∈ [Instr.new, .update [0x61]], i.WellFormed) ∧ State.reset.refusal = none ∧
      ∃ t, runCommands [.new, .update [0x61]] State.reset = .next t := by
  refine ⟨by decide, rfl, buffer [0x61] (State.reset.loadInitial.addLength 1), ?_⟩
  have h1 : exec .new State.reset = .next State.reset.loadInitial := rfl
  have h2 := exec_update_absorbs (data := [0x61]) (s := State.reset.loadInitial) rfl (fun _ => by decide)
  simp only [runCommands, h1, h2]
  rfl

/-- StepKeepsInvariant, CommandsKeepFillInvariant: an invariant state with a next state, at FILLED = 63. -/
theorem test_hyp_StepKeepsInvariant :
    (engineAt 63 127).Inv ∧ ∃ t, step (engineAt 63 127) = .next t := by
  refine ⟨⟨running_63.2.2.2, running_63.2.2.1, ?_, fun n => ?_⟩, _, rfl⟩
  · intro r h; simp [engineAt, State.reset] at h
  · simp [engineAt, State.reset]

/-- CommandsKeepFillInvariant: at the top of the counter, for both policies. -/
theorem test_hyp_CommandsKeepFillInvariant : Running (engineAt 63 (2 ^ 64 - 1)) := running_top

/-- StaleBufferBytesAreUnobservable: two states that differ in a byte above FILLED. -/
theorem test_hyp_StaleBufferBytesAreUnobservable :
    (engineAt 3 3).BufInv ∧ State.BufInv { engineAt 3 3 with buf := Memory.write (engineAt 3 3).buf 3 0xff } ∧
      (engineAt 3 3).filled.toNat ≤ 63 ∧
      SameButStaleBytes (engineAt 3 3) { engineAt 3 3 with buf := Memory.write (engineAt 3 3).buf 3 0xff } ∧
      engineAt 3 3 ≠ { engineAt 3 3 with buf := Memory.write (engineAt 3 3).buf 3 0xff } := by
  refine ⟨?_, ?_, by decide, ⟨rfl, by decide⟩, by decide⟩
  · unfold State.BufInv; decide
  · unfold State.BufInv; decide

/-- OnlyDigestResponds: each command has a next state. -/
theorem test_hyp_OnlyDigestResponds :
    (∃ t, exec .new (engineAt 3 3) = .next t) ∧ (∃ t, exec (.update [0x61]) (engineAt 3 3) = .next t) ∧
      (engineAt 3 3).status = .operational :=
  ⟨⟨_, rfl⟩, ⟨_, exec_update_absorbs rfl (fun _ => by decide)⟩, rfl⟩

/-- RotateAndShiftBits: the edges of n and i, ChooseAndMajority likewise. -/
theorem test_hyp_RotateAndShiftBits : (0 ≤ 31 ∧ 31 ≤ 31) ∧ rotr 0x00000001 31 = 0x00000002 := by decide

/-- AdditionIsModular: two orders of a chain. -/
theorem test_hyp_AdditionIsModular : ([1#32, 2] : List Word).Perm [2, 1] := by decide

/-- ScheduleSatisfiesRecurrence: the edges 15, 16 and 63 of t, and an all-zero block. -/
theorem test_hyp_ScheduleSatisfiesRecurrence :
    (15 : Nat) < 16 ∧ (16 ≤ 16 ∧ 16 < 64) ∧ (16 ≤ 63 ∧ 63 < 64) ∧ ∀ b ∈ (List.replicate 64 0#8), b = 0 := by decide

/-- CompressAddsRoundsToRunningState: a full buffer and one that is not. -/
theorem test_hyp_CompressAddsRoundsToRunningState :
    (engineAt 64 64).filled = 64 ∧ (engineAt 63 63).filled ≠ 64 ∧ (engineAt 64 64).h = (engineAt 64 128).h := by decide

/-- FormatGivesSixtyFourDigits, DigestBytesAreCharacterPairs: the edges of k. -/
theorem test_hyp_FormatGivesSixtyFourDigits : (0 : Nat) < 8 ∧ 7 < 8 ∧ 31 < 32 := by decide

/-- TextAssemblesToStream: a semicolon is a string character, a double quote is not. -/
theorem test_hyp_TextAssemblesToStream :
    (∀ c ∈ ['a', ';', ' ', '~'], isStringChar c = true) ∧ isStringChar (Char.ofNat 0x22) = false :=
  ⟨List.all_eq_true.mp (by decide), by decide⟩

end Sys2Proof.Tests
end

/-! SUPPORT. The statements of 10_state.md: what each command answers, the initial state and the phase, the invariants,
the unobservable buffer bytes, and the constant store. -/

namespace Sys2Proof.Machine

/-! ## What a command answers -/

/-- DIGEST up to the last COMPRESS: the state whose `H` is the digest (43_finalize.md R105, steps 2 to 4). -/
def padMessage (s : State) : State :=
  buffer (lengthField s.totalLen) (padToLength (padOverflowBlock (padMark s)))

theorem finalizeMessage_eq_finish {s : State} (hs : s.status = .operational) :
    finalizeMessage s = finish (padMessage s) :=
  finalizeMessage_operational hs

theorem BufferFrame.refl {s : State} (hs : s.status = .operational) : BufferFrame s s :=
  ⟨hs, rfl, rfl, rfl, rfl, rfl⟩

theorem BufferFrame.trans {s t u : State} (h : BufferFrame s t) (h' : BufferFrame t u) : BufferFrame s u where
  status := h'.status
  totalLen := h'.totalLen.trans h.totalLen
  refusal := h'.refusal.trans h.refusal
  stream := h'.stream.trans h.stream
  offset := h'.offset.trans h.offset
  responses := h'.responses.trans h.responses

theorem padOverflowBlock_bufferFrame {s : State} (hs : s.status = .operational) :
    BufferFrame s (padOverflowBlock s) := by
  unfold padOverflowBlock
  split
  · exact buffer_frame _ hs
  · exact .refl hs

theorem padMessage_bufferFrame {s : State} (hs : s.status = .operational) : BufferFrame s (padMessage s) := by
  have h2 : BufferFrame s (padMark s) := buffer_frame _ hs
  have h3 := h2.trans (padOverflowBlock_bufferFrame h2.status)
  have h4 : BufferFrame s (padToLength (padOverflowBlock (padMark s))) := h3.trans (buffer_frame _ h3.status)
  exact h4.trans (buffer_frame _ h4.status)

/-- Of the state the padding leaves, `finish` keeps `H` only, in the response. -/
theorem finish_eq_of_bufferFrame {s u : State} (hs : s.status = .operational) (h : BufferFrame s u) :
    finish u = s.loadInitial.respond (responseOf u.h) := by
  simp only [finish, State.respond, State.loadInitial, h.status, hs, h.refusal, h.stream, h.offset, h.responses]

theorem exec_new {s : State} (hs : s.status = .operational) : exec .new s = .next s.loadInitial :=
  perform_operational hs _

theorem exec_digest {s : State} (hs : s.status = .operational) :
    exec .digest s = .next (s.loadInitial.respond (responseOf (padMessage s).h)) := by
  refine (perform_operational hs _).trans ?_
  rw [finalizeMessage_eq_finish hs, finish_eq_of_bufferFrame hs (padMessage_bufferFrame hs)]

theorem exec_faulted {s : State} {r : Fault} (h : s.status = .faulted r) (i : Instr) : exec i s = .fault r := by
  cases i <;> exact perform_faulted h _

/-- Everything a command that answers a next state can be. -/
theorem exec_cases {i : Instr} {s t : State} (h : exec i s = .next t) :
    s.status = .operational ∧
      ((i = .new ∧ t = s.loadInitial) ∨
        (∃ data, i = .update data ∧ t = absorb Config.lenOverflow data s) ∨
        (i = .digest ∧ t = s.loadInitial.respond (responseOf (padMessage s).h))) := by
  cases i with
  | new =>
    obtain ⟨hs, rfl⟩ := perform_eq_next.mp h
    exact ⟨hs, .inl ⟨rfl, rfl⟩⟩
  | update data =>
    obtain ⟨hs, rfl⟩ := perform_eq_next.mp h
    exact ⟨hs, .inr (.inl ⟨data, rfl, rfl⟩)⟩
  | digest =>
    have hs : s.status = .operational := (perform_eq_next.mp h).1
    rw [exec_digest hs] at h
    exact ⟨hs, .inr (.inr ⟨rfl, (Host.Outcome.next.inj h).symm⟩)⟩

/-- Everything an UPDATE can do: take the overflow fault, or count its bytes and buffer them. -/
theorem absorb_cases (policy : LenOverflow) (data : List Byte) (s : State) :
    absorb policy data s = s.enterFault (.lengthOverflow s.filled) ∨
      absorb policy data s = buffer data (s.addLength data.length) := by
  unfold absorb
  split
  · exact .inl rfl
  · exact .inr rfl

/-! ## The initial state and the phase (R17, R22) -/

theorem loadInitial_initial (s : State) : s.loadInitial.Initial := ⟨rfl, fun _ _ => rfl, rfl, rfl⟩

theorem powerOn_initial (s : State) : s.powerOn.Initial := ⟨rfl, fun _ _ => rfl, rfl, rfl⟩

theorem respond_initial {s : State} (h : s.Initial) (v : Response) : (s.respond v).Initial :=
  ⟨h.h, h.buf, h.filled, h.totalLen⟩

theorem phase_eq_empty {s : State} (h : s.filled.toNat = 0) : s.phase = some .empty :=
  if_pos (BitVec.eq_of_toNat_eq h)

theorem phase_eq_accumulating {s : State} (hpos : 0 < s.filled.toNat) (hle : s.filled.toNat ≤ 63) :
    s.phase = some .accumulating := by
  have hne : s.filled ≠ 0 := fun h => by simp [h] at hpos
  rw [State.phase, if_neg hne, if_pos (by omega)]

/-- Settles O2: NEW and DIGEST both go through the initial-state load, which leaves the status. -/
theorem newAndDigestEndInInitialState : Obligations.NewAndDigestEndInInitialState := by
  unfold Obligations.NewAndDigestEndInInitialState
  refine ⟨rfl, powerOn_initial, fun s hs => ⟨?_, ?_⟩⟩
  · exact ⟨_, exec_new hs, loadInitial_initial s, phase_eq_empty rfl, rfl⟩
  · exact ⟨_, exec_digest hs, respond_initial (loadInitial_initial s) _, phase_eq_empty rfl, rfl⟩

/-! ## The phase after each command (R18) -/

theorem State.addLength_zero (s : State) : s.addLength 0 = s := by
  simp [State.addLength]

theorem buffer_nil {s : State} (hf : s.filled.toNat ≤ 63) : buffer [] s = s := by
  have h : ¬ s.completesBlock ([] : List Byte).length := by
    simp only [State.completesBlock, List.length_nil]; omega
  simp only [buffer, bufferLoop_tail _ h]
  simp [State.store, State.setFilled, Memory.writeBytes]

theorem exec_update_nil {s : State} (hs : s.status = .operational) (hf : s.filled.toNat ≤ 63) :
    exec (.update []) s = .next s := by
  have hlen : s.totalLen.toNat + ([] : List Byte).length ≤ 2 ^ 64 - 1 := by
    have := s.totalLen.isLt
    simp only [List.length_nil]; omega
  rw [exec_update_absorbs hs fun _ => hlen, List.length_nil, State.addLength_zero, buffer_nil hf]

/-- Settles O7: an UPDATE leaves FILLED at the sum modulo 64 (`buffer_result`), and FILLED alone decides the phase. -/
theorem phaseFollowsEveryCommand : Obligations.PhaseFollowsEveryCommand := by
  unfold Obligations.PhaseFollowsEveryCommand
  refine ⟨fun s hs => ⟨_, exec_new hs, phase_eq_empty rfl⟩, fun s hs hf => exec_update_nil hs hf, ?_,
    fun s hs => ⟨_, exec_digest hs, phase_eq_empty rfl⟩, fun i s r h => exec_faulted h i⟩
  intro data s hs hf hw hlen hdata
  have hfilled : (buffer data (s.addLength data.length)).filled.toNat = (s.filled.toNat + data.length) % 64 :=
    (buffer_result data (s := s.addLength data.length) hs hf hw).filled
  have hpos : 0 < data.length := List.length_pos_iff.mpr hdata
  refine ⟨_, exec_update_absorbs hs hlen, fun hlt => ⟨?_, ?_⟩, fun _ hzero => ?_, fun _ hrest => ?_⟩
  · exact phase_eq_accumulating (by omega) (by omega)
  · omega
  · exact phase_eq_empty (by omega)
  · exact phase_eq_accumulating (by omega) (by omega)

/-! ## When H changes (R25) -/

/-- Settles O10: a payload that completes no block leaves no block to hash, so the chain over the blocks is `H`. -/
theorem runningStateChangesOnlyAtCompressionOrLoad : Obligations.RunningStateChangesOnlyAtCompressionOrLoad := by
  unfold Obligations.RunningStateChangesOnlyAtCompressionOrLoad
  intro i s t hf hw hexec hne
  obtain ⟨hs, ⟨rfl, rfl⟩ | ⟨data, rfl, rfl⟩ | ⟨rfl, rfl⟩⟩ := exec_cases hexec
  · exact .inl ⟨rfl, rfl⟩
  · refine .inr (.inr ⟨data, rfl, ?_⟩)
    rcases absorb_cases Config.lenOverflow data s with habsorb | habsorb
    · exact absurd (by rw [habsorb, State.enterFault_h]) hne
    · have hh : (absorb Config.lenOverflow data s).h = hashBlocks s.h (blocksOf (s.pending ++ data)) := by
        rw [habsorb]
        exact (buffer_result data (s := s.addLength data.length) hs hf hw).h
      refine ⟨Nat.not_lt.mp fun hlt => hne ?_, hh⟩
      have hshort : (s.pending ++ data).length < 64 := by simpa using hlt
      rw [hh, blocksOf_short hshort, hashBlocks, List.foldl_nil]
  · exact .inr (.inl ⟨rfl, rfl⟩)

/-! ## The fill invariant (R24) -/

theorem loadInitial_fillInv (s : State) : s.loadInitial.FillInv := ⟨Nat.zero_le _, rfl⟩

/-- 64 divides 2^64, so FILLED follows TOTAL_LEN modulo 64 also where the counter wraps. -/
theorem buffer_addLength_fillInv (data : List Byte) {s : State} (hs : s.status = .operational) (hw : s.BufInv)
    (hf : s.FillInv) : (buffer data (s.addLength data.length)).FillInv := by
  obtain ⟨hle, hmod⟩ := hf
  have hfilled : (buffer data (s.addLength data.length)).filled.toNat = (s.filled.toNat + data.length) % 64 :=
    (buffer_result data (s := s.addLength data.length) hs hle hw).filled
  have htotal : (buffer data (s.addLength data.length)).totalLen.toNat = (s.totalLen.toNat + data.length) % 2 ^ 64 := by
    rw [(buffer_frame data (s := s.addLength data.length) hs).totalLen, State.addLength_totalLen, BitVec.toNat_ofNat]
  unfold State.FillInv
  omega

theorem absorb_fillInv (policy : LenOverflow) (data : List Byte) {s : State} (hs : s.status = .operational)
    (hw : s.BufInv) (hf : s.FillInv) : (absorb policy data s).FillInv := by
  rcases absorb_cases policy data s with h | h <;> rw [h]
  · exact hf
  · exact buffer_addLength_fillInv data hs hw hf

theorem exec_fillInv {i : Instr} {s t : State} (hw : s.BufInv) (hf : s.FillInv) (h : exec i s = .next t) :
    t.FillInv := by
  obtain ⟨hs, ⟨-, rfl⟩ | ⟨data, -, rfl⟩ | ⟨-, rfl⟩⟩ := exec_cases h
  · exact loadInitial_fillInv s
  · exact absorb_fillInv _ data hs hw hf
  · exact loadInitial_fillInv s

/-- Settles O33: the load gives FILLED and TOTAL_LEN zero, and an UPDATE advances both by its length. -/
theorem commandsKeepFillInvariant : Obligations.CommandsKeepFillInvariant := by
  unfold Obligations.CommandsKeepFillInvariant
  refine ⟨⟨Nat.zero_le _, rfl⟩, fun i s t => exec_fillInv, fun policy data s => absorb_fillInv policy data,
    fun s ⟨hle, _⟩ => ?_⟩
  rcases Nat.eq_zero_or_pos s.filled.toNat with hzero | hpos
  · exact .inl ⟨hzero, phase_eq_empty hzero⟩
  · exact .inr ⟨hpos, phase_eq_accumulating hpos hle⟩

/-! ## The whole invariant (R24, R54, R131) -/

theorem length_formatWord (w : Word) : (formatWord w).length = 8 := by simp [formatWord]

theorem length_responseOf (d : Words8) : (responseOf d).length = 64 := by
  simp [responseOf, asciiBytes, format, Words8.toList, length_formatWord]

theorem isHexByte_hexDigit : ∀ v : BitVec 4, isHexByte (BitVec.ofNat 8 (hexDigit v).toNat) = true := by decide

theorem isHexByte_of_mem_responseOf {d : Words8} {b : Byte} (h : b ∈ responseOf d) : isHexByte b = true := by
  simp only [responseOf, asciiBytes, format, formatWord, List.mem_map, List.mem_flatMap] at h
  obtain ⟨_, ⟨_, -, _, -, rfl⟩, rfl⟩ := h
  exact isHexByte_hexDigit _

theorem noCompressFault_of_operational {s : State} (hs : s.status = .operational) : s.NoCompressFault := by
  intro n
  simp [hs]

theorem loadInitial_inv {s : State} (h : s.Inv) : s.loadInitial.Inv :=
  ⟨loadInitial_fillInv s, Memory.wf_nil, h.responses, h.noCompressFault⟩

theorem respond_responseOf_inv {s : State} (h : s.Inv) (d : Words8) : (s.respond (responseOf d)).Inv := by
  refine ⟨h.fill, h.buf, fun r hr => ?_, h.noCompressFault⟩
  rcases List.mem_append.mp hr with hold | hnew
  · exact h.responses r hold
  · obtain rfl := List.mem_singleton.mp hnew
    exact ⟨length_responseOf d, fun b => isHexByte_of_mem_responseOf⟩

theorem absorb_inv (policy : LenOverflow) (data : List Byte) {s : State} (hs : s.status = .operational) (h : s.Inv) :
    (absorb policy data s).Inv := by
  have hfill := absorb_fillInv policy data hs h.buf h.fill
  rcases absorb_cases policy data s with habsorb | habsorb <;> rw [habsorb] at hfill ⊢
  · exact ⟨hfill, h.buf, h.responses, fun n => by simp⟩
  · have hframe := buffer_frame data (s := s.addLength data.length) hs
    have hresult := buffer_result data (s := s.addLength data.length) hs h.fill.1 h.buf
    refine ⟨hfill, hresult.buf, ?_, noCompressFault_of_operational hframe.status⟩
    unfold State.ResponseInv
    rw [hframe.responses]
    exact h.responses

theorem exec_inv {i : Instr} {s t : State} (h : s.Inv) (hexec : exec i s = .next t) : t.Inv := by
  obtain ⟨hs, ⟨-, rfl⟩ | ⟨data, -, rfl⟩ | ⟨-, rfl⟩⟩ := exec_cases hexec
  · exact loadInitial_inv h
  · exact absorb_inv _ data hs h
  · exact respond_responseOf_inv (loadInitial_inv h) _

theorem consume_inv {s : State} (h : s.Inv) (rest : List Byte) : (s.consume rest).Inv :=
  ⟨h.fill, h.buf, h.responses, h.noCompressFault⟩

theorem refuse_inv {s : State} (h : s.Inv) (r : Refusal) : (s.refuse r).Inv :=
  ⟨h.fill, h.buf, h.responses, h.noCompressFault⟩

/-- Settles O31: a step is a command after its bytes are taken, an idle step, or a refusal mark. -/
theorem stepKeepsInvariant : Obligations.StepKeepsInvariant := by
  unfold Obligations.StepKeepsInvariant
  intro s t h hstep
  obtain ⟨-, ⟨i, rest, -, hexec⟩ | ⟨-, -, rfl⟩ | ⟨op, -, rfl⟩ | ⟨-, rfl⟩⟩ := step_cases hstep
  · exact exec_inv (consume_inv h rest) hexec
  · exact h
  · exact refuse_inv h _
  · exact refuse_inv h _

/-- Settles O32. -/
theorem resetHasInvariant : Obligations.ResetHasInvariant :=
  ⟨⟨Nat.zero_le _, rfl⟩, Memory.wf_nil, List.forall_mem_nil _, noCompressFault_of_operational rfl⟩

/-! ## Stale buffer bytes (R15, R26)

The induction carries a relation that keeps of BUF the pending bytes only; `buffer_result` says that they, with `H`,
decide everything the buffering path leaves. -/

/-- Two states between commands that agree in everything but the buffer bytes at and above FILLED. -/
structure StaleTwins (s t : State) : Prop where
  bufLeft : s.BufInv
  bufRight : t.BufInv
  filled_le : s.filled.toNat ≤ 63
  pending : s.pending = t.pending
  h : s.h = t.h
  totalLen : s.totalLen = t.totalLen
  status : s.status = t.status
  refusal : s.refusal = t.refusal
  stream : s.stream = t.stream
  offset : s.offset = t.offset
  responses : s.responses = t.responses

theorem SameButStaleBytes.staleTwins {s t : State} (hs : s.BufInv) (ht : t.BufInv) (hf : s.filled.toNat ≤ 63)
    (e : SameButStaleBytes s t) : StaleTwins s t where
  bufLeft := hs
  bufRight := ht
  filled_le := hf
  pending := by
    have hfilled : s.filled = t.filled := by rw [← e.rest]
    rw [State.pending, State.pending, ← hfilled]
    exact Memory.readBytes_congr fun j _ hj => e.live j (by omega)
  h := by rw [← e.rest]
  totalLen := by rw [← e.rest]
  status := by rw [← e.rest]
  refusal := by rw [← e.rest]
  stream := by rw [← e.rest]
  offset := by rw [← e.rest]
  responses := by rw [← e.rest]

namespace StaleTwins

variable {s t : State}

theorem filled (h : StaleTwins s t) : s.filled = t.filled := by
  apply BitVec.eq_of_toNat_eq
  rw [← State.length_pending s, h.pending, State.length_pending]

theorem observation (h : StaleTwins s t) : s.observation = t.observation := by
  simp only [State.observation, State.isFaulted, h.responses, h.status, h.refusal]

/-! ### The named operations keep the relation -/

theorem consume (h : StaleTwins s t) (rest : List Byte) : StaleTwins (s.consume rest) (t.consume rest) :=
  { h with stream := rfl, offset := by simp only [State.consume_offset, h.offset, h.stream] }

theorem refuse (h : StaleTwins s t) (r : Refusal) : StaleTwins (s.refuse r) (t.refuse r) :=
  { h with refusal := rfl }

theorem enterFault (h : StaleTwins s t) (r : Fault) : StaleTwins (s.enterFault r) (t.enterFault r) :=
  { h with status := rfl }

theorem addLength (h : StaleTwins s t) (n : Nat) : StaleTwins (s.addLength n) (t.addLength n) :=
  { h with totalLen := by simp only [State.addLength_totalLen, h.totalLen] }

theorem loadInitial (h : StaleTwins s t) : StaleTwins s.loadInitial t.loadInitial :=
  { h with
    bufLeft := Memory.wf_nil, bufRight := Memory.wf_nil, filled_le := Nat.zero_le _, pending := rfl, h := rfl,
    totalLen := rfl }

theorem respond (h : StaleTwins s t) (v : Response) : StaleTwins (s.respond v) (t.respond v) :=
  { h with responses := by simp only [State.respond_responses, h.responses] }

/-- The buffering path reads of BUF the pending bytes only. -/
theorem buffer (h : StaleTwins s t) (data : List Byte) (hs : s.status = .operational) :
    StaleTwins (Machine.buffer data s) (Machine.buffer data t) := by
  have ht : t.status = .operational := h.status ▸ hs
  have fs := buffer_frame data hs
  have ft := buffer_frame data ht
  have rs := buffer_result data hs h.filled_le h.bufLeft
  have rt := buffer_result data ht (h.filled ▸ h.filled_le) h.bufRight
  exact
    { bufLeft := rs.buf
      bufRight := rt.buf
      filled_le := by have := rs.filled; omega
      pending := by rw [rs.pending, rt.pending, h.pending]
      h := by rw [rs.h, rt.h, h.h, h.pending]
      totalLen := by rw [fs.totalLen, ft.totalLen, h.totalLen]
      status := by rw [fs.status, ft.status]
      refusal := by rw [fs.refusal, ft.refusal, h.refusal]
      stream := by rw [fs.stream, ft.stream, h.stream]
      offset := by rw [fs.offset, ft.offset, h.offset]
      responses := by rw [fs.responses, ft.responses, h.responses] }

/-! ### Commands keep it -/

theorem absorb (h : StaleTwins s t) (policy : LenOverflow) (data : List Byte) (hs : s.status = .operational) :
    StaleTwins (Machine.absorb policy data s) (Machine.absorb policy data t) := by
  simp only [Machine.absorb, State.lengthOverflows, ← h.totalLen, ← h.filled]
  split
  · exact h.enterFault _
  · exact (h.addLength _).buffer data hs

theorem padOverflowBlock (h : StaleTwins s t) (hs : s.status = .operational) :
    StaleTwins (Machine.padOverflowBlock s) (Machine.padOverflowBlock t) := by
  simp only [Machine.padOverflowBlock, State.noRoomForLength, ← h.filled]
  split
  · exact h.buffer _ hs
  · exact h

theorem padToLength (h : StaleTwins s t) (hs : s.status = .operational) :
    StaleTwins (Machine.padToLength s) (Machine.padToLength t) := by
  simp only [Machine.padToLength, ← h.filled]
  exact h.buffer _ hs

theorem padMessage (h : StaleTwins s t) (hs : s.status = .operational) :
    StaleTwins (Machine.padMessage s) (Machine.padMessage t) := by
  have f2 : BufferFrame s (padMark s) := buffer_frame _ hs
  have f3 := padOverflowBlock_bufferFrame f2.status
  have f4 : BufferFrame _ (Machine.padToLength _) := buffer_frame _ f3.status
  have h2 : StaleTwins (padMark s) (padMark t) := h.buffer _ hs
  have h4 := (h2.padOverflowBlock f2.status).padToLength f3.status
  simp only [Machine.padMessage, ← h.totalLen]
  exact h4.buffer _ f4.status

theorem finalizeMessage (h : StaleTwins s t) (hs : s.status = .operational) :
    StaleTwins (Machine.finalizeMessage s) (Machine.finalizeMessage t) := by
  have hp := h.padMessage hs
  rw [finalizeMessage_eq_finish hs, finalizeMessage_eq_finish (h.status ▸ hs), finish, finish, hp.h]
  exact hp.loadInitial.respond _

end StaleTwins

/-- Outcomes of the same kind, with the same reason or with next states that are twins. -/
inductive TwinOutcomes : (o o' : Host.Outcome State Fault Refusal) → Prop
  | next {s t : State} (h : StaleTwins s t) : TwinOutcomes (.next s) (.next t)
  | fault (r : Fault) : TwinOutcomes (.fault r) (.fault r)
  | refused (r : Refusal) : TwinOutcomes (.refused r) (.refused r)

theorem perform_twinOutcomes {s t : State} {body : State → State} (h : StaleTwins s t)
    (hbody : s.status = .operational → StaleTwins (body s) (body t)) :
    TwinOutcomes (perform body s) (perform body t) := by
  cases hs : s.status with
  | operational =>
    rw [perform_operational hs, perform_operational (h.status ▸ hs)]
    exact .next (hbody hs)
  | faulted r =>
    rw [perform_faulted hs, perform_faulted (h.status ▸ hs)]
    exact .fault r

theorem exec_twinOutcomes {s t : State} (i : Instr) (h : StaleTwins s t) : TwinOutcomes (exec i s) (exec i t) := by
  cases i with
  | new => exact perform_twinOutcomes h fun _ => h.loadInitial
  | update data => exact perform_twinOutcomes h (h.absorb _ data)
  | digest => exact perform_twinOutcomes h h.finalizeMessage

theorem step_twinOutcomes {s t : State} (h : StaleTwins s t) : TwinOutcomes (step s) (step t) := by
  have hmark := h.refusal
  have hstream := h.stream
  unfold step
  cases hr : s.refusal with
  | some r =>
    rw [fetch_marked hr, fetch_marked (hmark ▸ hr)]
    exact .refused r
  | none =>
    have hr' : t.refusal = none := hmark ▸ hr
    cases hd : decode s.stream with
    | nothing =>
      rw [fetch_nothing hr hd, fetch_nothing hr' (hstream ▸ hd)]
      exact perform_twinOutcomes h fun _ => h
    | command i rest =>
      rw [fetch_command hr hd, fetch_command hr' (hstream ▸ hd)]
      exact exec_twinOutcomes i (h.consume rest)
    | reserved op =>
      rw [fetch_reserved hr hd, fetch_reserved hr' (hstream ▸ hd), h.offset]
      exact .next (h.refuse _)
    | incomplete =>
      rw [fetch_incomplete hr hd, fetch_incomplete hr' (hstream ▸ hd), h.offset]
      exact .next (h.refuse _)

theorem observe_eq_of_staleTwins (commands : List Instr) :
    ∀ {s t : State}, StaleTwins s t → observe commands s = observe commands t := by
  induction commands with
  | nil => exact StaleTwins.observation
  | cons i rest ih =>
    intro s t h
    have ho := exec_twinOutcomes i h
    unfold observe
    generalize exec i s = o at ho ⊢
    generalize exec i t = o' at ho ⊢
    cases ho with
    | next h' => exact ih h'
    | fault r => exact h.observation
    | refused r => exact h.observation

theorem observeStream_eq_of_staleTwins (n : Nat) :
    ∀ {s t : State}, StaleTwins s t → observeStream n s = observeStream n t := by
  induction n with
  | zero => exact StaleTwins.observation
  | succ n ih =>
    intro s t h
    have ho := step_twinOutcomes h
    unfold observeStream
    generalize step s = o at ho ⊢
    generalize step t = o' at ho ⊢
    cases ho with
    | next h' => exact ih h'
    | fault r => exact h.observation
    | refused r => exact h.observation

/-- Settles O34: twins take the same step, along a command sequence and along a stream. -/
theorem staleBufferBytesAreUnobservable : Obligations.StaleBufferBytesAreUnobservable := by
  unfold Obligations.StaleBufferBytesAreUnobservable
  intro s t hs ht hf hsame
  have h := hsame.staleTwins hs ht hf
  exact ⟨fun commands => observe_eq_of_staleTwins commands h, fun n => observeStream_eq_of_staleTwins n h⟩

/-! ## The constant store (R19, R20) -/

/-- The first 64 primes, in order. -/
def firstPrimes : List Nat :=
  [2, 3, 5, 7, 11, 13, 17, 19, 23, 29, 31, 37, 41, 43, 47, 53, 59, 61, 67, 71, 73, 79, 83, 89, 97, 101, 103, 107, 109,
    113, 127, 131, 137, 139, 149, 151, 157, 163, 167, 173, 179, 181, 191, 193, 197, 199, 211, 223, 227, 229, 233, 239,
    241, 251, 257, 263, 269, 271, 277, 281, 283, 293, 307, 311]

theorem filter_range_eq_map_nth (p : Nat → Prop) [DecidablePred p] (n : Nat) :
    (List.range n).filter p = (List.range (Nat.count p n)).map (Nat.nth p) := by
  induction n with
  | zero => simp
  | succ n ih =>
    rw [List.range_succ, List.filter_append, ih]
    by_cases h : p n
    · simp [Nat.count_succ, h, List.range_succ, Nat.nth_count h]
    · simp [Nat.count_succ, h]

/-- Trial division, in a form the kernel evaluates quickly; 18 is the first number whose square is beyond the table. -/
theorem prime_iff_trialDivision {n : Nat} (hn : n < 312) :
    n.Prime ↔ 2 ≤ n ∧ ∀ m < 18, 2 ≤ m → m * m ≤ n → ¬ m ∣ n := by
  simp only [Nat.prime_def_le_sqrt, Nat.le_sqrt]
  refine and_congr_right fun _ => ⟨fun h m _ => h m, fun h m hm hsq => h m ?_ hm hsq⟩
  nlinarith

theorem filter_prime_range_eq_firstPrimes : (List.range 312).filter Nat.Prime = firstPrimes := by
  have htrial : (List.range 312).filter Nat.Prime =
      (List.range 312).filter fun n => 2 ≤ n ∧ ∀ m < 18, 2 ≤ m → m * m ≤ n → ¬ m ∣ n :=
    List.filter_congr fun n hn => decide_eq_decide.mpr (prime_iff_trialDivision (List.mem_range.mp hn))
  rw [htrial]
  decide +kernel

theorem nth_prime_eq_firstPrimes {t : Nat} (ht : t < 64) : Nat.nth Nat.Prime t = firstPrimes.getD t 0 := by
  have hmap := filter_range_eq_map_nth Nat.Prime 312
  rw [filter_prime_range_eq_firstPrimes] at hmap
  have hcount : Nat.count Nat.Prime 312 = 64 := by simpa [firstPrimes] using (congrArg List.length hmap).symm
  rw [hmap, hcount]
  simp [ht]

/-- `q` is the whole part of the root: at most 6 for the cube roots. -/
theorem K_is_cubeRootFraction :
    ∀ t < 64, ∃ q < 7,
      (q * 2 ^ 32 + (K t).toNat) ^ 3 ≤ firstPrimes.getD t 0 * 2 ^ 96 ∧
        firstPrimes.getD t 0 * 2 ^ 96 < (q * 2 ^ 32 + (K t).toNat + 1) ^ 3 := by
  decide +kernel

/-- `q` is the whole part of the root: at most 4 for the square roots. -/
theorem IV_is_squareRootFraction :
    ∀ i : Fin 8, ∃ q < 5,
      (q * 2 ^ 32 + (IV.get i).toNat) ^ 2 ≤ firstPrimes.getD i 0 * 2 ^ 64 ∧
        firstPrimes.getD i 0 * 2 ^ 64 < (q * 2 ^ 32 + (IV.get i).toNat + 1) ^ 2 := by
  decide +kernel

/-- Settles O46: the primes are the table `firstPrimes`, and against it every ROM word is a bounded comparison. -/
theorem romHoldsRootFractions : Obligations.RomHoldsRootFractions := by
  unfold Obligations.RomHoldsRootFractions
  refine ⟨fun t ht => ?_, fun i => ?_⟩
  · obtain ⟨q, -, hq⟩ := K_is_cubeRootFraction t ht
    rw [nth_prime_eq_firstPrimes ht]
    exact ⟨q, hq⟩
  · obtain ⟨q, -, hq⟩ := IV_is_squareRootFraction i
    rw [nth_prime_eq_firstPrimes (by omega)]
    exact ⟨q, hq⟩

end Sys2Proof.Machine

/-! SUPPORT. The statements of 20_memory.md: a stream runs its commands, what BUFFER stores in BUF, which commands are
idempotent, that engines are independent, and the big-endian words of a block. -/

namespace Sys2Proof

/-! ## Decoding an encoded command (30_encoding.md R50, R51) -/

theorem be64Byte_toNat (v : Word64) (k : Nat) : (be64Byte v k).toNat = v.toNat / 2 ^ (56 - 8 * k) % 2 ^ 8 := by
  simp [be64Byte, Nat.shiftRight_eq_div_pow]

theorem beNat_append_singleton (bytes : List Byte) (b : Byte) : beNat (bytes ++ [b]) = beNat bytes * 256 + b.toNat := by
  simp [beNat]

/-- The first `k` bytes of a 64-bit field are its top `8k` bits. -/
theorem beNat_be64Bytes_prefix (v : Word64) {k : Nat} (hk : k ≤ 8) :
    beNat ((List.range k).map (be64Byte v)) = v.toNat / 2 ^ (64 - 8 * k) := by
  induction k with
  | zero => simp [beNat, Nat.div_eq_of_lt v.isLt]
  | succ k ih =>
    have hwidth : 64 - 8 * k = (56 - 8 * k) + 8 := by omega
    have hprefix : beNat ((List.range k).map (be64Byte v)) = v.toNat / 2 ^ (56 - 8 * k) / 256 := by
      rw [ih (by omega), hwidth, Nat.pow_add, Nat.div_div_eq_div_mul]
    rw [List.range_succ, List.map_append, List.map_singleton, beNat_append_singleton, hprefix, be64Byte_toNat,
      show 64 - 8 * (k + 1) = 56 - 8 * k by omega]
    exact Nat.div_add_mod' _ 256

theorem beNat_be64Bytes (v : Word64) : beNat (be64Bytes v) = v.toNat :=
  (beNat_be64Bytes_prefix v (Nat.le_refl 8)).trans (Nat.div_one _)

@[simp] theorem length_be64Bytes (v : Word64) : (be64Bytes v).length = 8 := by simp [be64Bytes]

theorem decodeUpdate_payload {data : List Byte} (h : data.length < 2 ^ 64) (rest : List Byte) :
    decodeUpdate (be64Bytes (BitVec.ofNat 64 data.length) ++ (data ++ rest)) = .command (.update data) rest := by
  have hlen : beNat (be64Bytes (BitVec.ofNat 64 data.length)) = data.length := by
    rw [beNat_be64Bytes, BitVec.toNat_ofNat, Nat.mod_eq_of_lt h]
  have htake : (be64Bytes (BitVec.ofNat 64 data.length) ++ (data ++ rest)).take 8 =
      be64Bytes (BitVec.ofNat 64 data.length) := List.take_left' (length_be64Bytes _)
  have hdrop : (be64Bytes (BitVec.ofNat 64 data.length) ++ (data ++ rest)).drop 8 = data ++ rest :=
    List.drop_left' (length_be64Bytes _)
  simp [decodeUpdate, htake, hdrop, hlen]

/-- The decoder reads an encoded command back, and leaves what follows it. -/
theorem decode_encode {i : Instr} (h : i.WellFormed) (rest : List Byte) :
    decode (encode i ++ rest) = .command i rest := by
  cases i with
  | new => rfl
  | digest => rfl
  | update data =>
    have hlen : data.length < 2 ^ 64 := by
      by_contra hlong
      simp only [Instr.WellFormed, Instr.illFormed, if_neg hlong] at h
      cases h
    refine Eq.trans ?_ (decodeUpdate_payload hlen rest)
    simp [encode, opcode, operandBytes, decode, opNew, opUpdate]

end Sys2Proof

namespace Sys2Proof.Machine

/-! ## One equation a case for UPDATE and for the padding block -/

theorem exec_update (data : List Byte) {s : State} (hs : s.status = .operational) :
    exec (.update data) s = .next (absorb Config.lenOverflow data s) :=
  perform_operational hs _

theorem padOverflowBlock_of_noRoom {s : State} (h : s.noRoomForLength) :
    padOverflowBlock s = buffer (zeroFill (64 - s.filled.toNat)) s := if_pos h

theorem padOverflowBlock_of_room {s : State} (h : ¬ s.noRoomForLength) : padOverflowBlock s = s := if_neg h

/-! ## The caller's stream is no operand of a command (R43)

A command reads and writes neither `stream` nor `offset`, so it does the same whatever stands in them. -/

/-- The same engine with other bytes, at another offset, waiting in the caller's stream. -/
def State.atStream (s : State) (bytes : List Byte) (offset : Nat) : State :=
  { s with stream := bytes, offset := offset }

@[simp] theorem State.atStream_h (s : State) (bytes : List Byte) (offset : Nat) :
    (s.atStream bytes offset).h = s.h := rfl

section

variable {s t : State} (bytes : List Byte) (offset : Nat)

theorem bufferLoop_atStream (turns : Nat) : ∀ (data : List Byte) (s : State), s.status = .operational →
    bufferLoop turns data (s.atStream bytes offset) = (bufferLoop turns data s).atStream bytes offset := by
  induction turns with
  | zero => exact fun _ _ _ => rfl
  | succ turns ih =>
    intro data s hs
    by_cases h : s.completesBlock data.length
    · rw [bufferLoop_block turns hs h, bufferLoop_block turns (s := s.atStream bytes offset) hs h]
      exact ih _ (afterBlock data s) hs
    · rw [bufferLoop_tail turns h, bufferLoop_tail turns (s := s.atStream bytes offset) h]
      rfl

theorem buffer_atStream (data : List Byte) (hs : s.status = .operational) :
    buffer data (s.atStream bytes offset) = (buffer data s).atStream bytes offset :=
  bufferLoop_atStream bytes offset _ data s hs

theorem absorb_atStream (policy : LenOverflow) (data : List Byte) (hs : s.status = .operational) :
    absorb policy data (s.atStream bytes offset) = (absorb policy data s).atStream bytes offset := by
  have hbuffer := buffer_atStream bytes offset data (s := s.addLength data.length) hs
  by_cases h : s.lengthOverflows data.length
  · cases policy with
    | wrap => rw [absorb_wrap, absorb_wrap]; exact hbuffer
    | fault => rw [absorb_fault h, absorb_fault (s := s.atStream bytes offset) h]; rfl
  · rw [absorb_fits policy h, absorb_fits policy (s := s.atStream bytes offset) h]; exact hbuffer

theorem padOverflowBlock_atStream (hs : s.status = .operational) :
    padOverflowBlock (s.atStream bytes offset) = (padOverflowBlock s).atStream bytes offset := by
  by_cases h : s.noRoomForLength
  · rw [padOverflowBlock_of_noRoom h, padOverflowBlock_of_noRoom (s := s.atStream bytes offset) h]
    exact buffer_atStream bytes offset _ hs
  · rw [padOverflowBlock_of_room h, padOverflowBlock_of_room (s := s.atStream bytes offset) h]

theorem padMessage_atStream (hs : s.status = .operational) :
    padMessage (s.atStream bytes offset) = (padMessage s).atStream bytes offset := by
  have h2 : (padMark s).status = .operational := (buffer_frame _ hs).status
  have h3 := padOverflowBlock_status h2
  have h4 : (padToLength (padOverflowBlock (padMark s))).status = .operational := (buffer_frame _ h3).status
  have hmark : padMark (s.atStream bytes offset) = (padMark s).atStream bytes offset :=
    buffer_atStream bytes offset _ hs
  have hfill : padToLength ((padOverflowBlock (padMark s)).atStream bytes offset) =
      (padToLength (padOverflowBlock (padMark s))).atStream bytes offset := buffer_atStream bytes offset _ h3
  rw [padMessage, hmark, padOverflowBlock_atStream bytes offset h2, hfill]
  exact buffer_atStream bytes offset _ h4

/-- A command does the same to the engine whatever waits behind it in the stream. -/
theorem exec_atStream {i : Instr} (h : exec i s = .next t) :
    exec i (s.atStream bytes offset) = .next (t.atStream bytes offset) := by
  obtain ⟨hs, ⟨rfl, rfl⟩ | ⟨data, rfl, rfl⟩ | ⟨rfl, rfl⟩⟩ := exec_cases h
  · exact exec_new (s := s.atStream bytes offset) hs
  · rw [exec_update data (s := s.atStream bytes offset) hs, absorb_atStream bytes offset _ data hs]
  · rw [exec_digest (s := s.atStream bytes offset) hs, padMessage_atStream bytes offset hs, State.atStream_h]
    rfl

end

/-! ## Running a stream (30_encoding.md R50) -/

theorem runCommands_cons_eq_next {i : Instr} {is : List Instr} {s t : State} :
    runCommands (i :: is) s = .next t ↔ ∃ u, exec i s = .next u ∧ runCommands is u = .next t := by
  simp only [runCommands]
  cases exec i s <;> simp

theorem run_succ_of_step {s t : State} (h : step s = .next t) (n : Nat) :
    Sys2Proof.core.run (n + 1) s = Sys2Proof.core.run n t := by
  have hstep : Sys2Proof.core.step s = .next t := h
  simp only [Host.Core.run, hstep]

/-- One step takes the bytes of the encoded command in front of it, and performs that command. -/
theorem step_atStream_encode {i : Instr} {s t : State} (hi : i.WellFormed) (hr : s.refusal = none)
    (h : exec i s = .next t) (more : List Byte) (offset : Nat) :
    step (s.atStream (encode i ++ more) offset) = .next (t.atStream more (offset + (encode i).length)) := by
  have hfetch : fetch (s.atStream (encode i ++ more) offset) =
      .issue i ((s.atStream (encode i ++ more) offset).consume more) := fetch_command hr (decode_encode hi more)
  have hconsume : (s.atStream (encode i ++ more) offset).consume more =
      s.atStream more (offset + (encode i).length) := by
    simp [State.atStream, State.consume]
  rw [step, hfetch, hconsume]
  exact exec_atStream more _ h

theorem run_atStream_encodeAll (is : List Instr) (rest : List Byte) : ∀ (s t : State) (offset : Nat),
    (∀ i ∈ is, i.WellFormed) → s.refusal = none → runCommands is s = .next t →
    Sys2Proof.core.run is.length (s.atStream (encodeAll is ++ rest) offset) =
      .next (t.atStream rest (offset + (encodeAll is).length)) := by
  induction is with
  | nil =>
    intro s t offset _ _ hrun
    obtain rfl := Host.Outcome.next.inj hrun
    rfl
  | cons i is ih =>
    intro s t offset hwf hr hrun
    obtain ⟨hi, his⟩ := List.forall_mem_cons.mp hwf
    obtain ⟨u, hexec, hrest⟩ := runCommands_cons_eq_next.mp hrun
    have hall : encodeAll (i :: is) = encode i ++ encodeAll is := List.flatMap_cons
    have hstep := step_atStream_encode hi hr hexec (encodeAll is ++ rest) offset
    rw [hall, List.append_assoc, List.length_cons, run_succ_of_step hstep,
      ih u t _ his ((exec_frame hexec).refusal.trans hr) hrest, List.length_append, Nat.add_assoc]

/-- Settles O29: each step decodes the next encoded command (`decode_encode`) and performs it as it is performed without
the stream (`exec_atStream`); induction over the commands. -/
theorem streamRunsItsCommands : Obligations.StreamRunsItsCommands := by
  unfold Obligations.StreamRunsItsCommands
  intro is rest s t hwf hr hrun
  exact run_atStream_encodeAll is rest s t s.offset hwf hr hrun

/-! ## BUFFER by blocks (42_streaming.md R101)

From FILLED at most 63 every turn of the loop has turns enough, so BUFFER itself satisfies the loop's two equations, and
what holds along its turns is proved by `buffer_induction`. -/

theorem bufferLoop_turns (a : Nat) : ∀ (b : Nat) (data : List Byte) (s : State), s.status = .operational →
    s.filled.toNat ≤ 63 → data.length < a → data.length < b → bufferLoop a data s = bufferLoop b data s := by
  induction a with
  | zero => intro b data s _ _ ha; omega
  | succ a ih =>
    intro b data s hs hf ha hb
    obtain ⟨b, rfl⟩ : ∃ b', b = b' + 1 := ⟨b - 1, by omega⟩
    by_cases h : s.completesBlock data.length
    · have hblock : 64 ≤ s.filled.toNat + data.length := h
      have hdrop : (data.drop (64 - s.filled.toNat)).length = data.length - (64 - s.filled.toNat) := List.length_drop
      rw [bufferLoop_block a hs h, bufferLoop_block b hs h]
      exact ih b _ (afterBlock data s) hs (Nat.zero_le _) (by omega) (by omega)
    · rw [bufferLoop_tail a h, bufferLoop_tail b h]

theorem buffer_block {data : List Byte} {s : State} (hs : s.status = .operational) (hf : s.filled.toNat ≤ 63)
    (h : s.completesBlock data.length) :
    buffer data s = buffer (data.drop (64 - s.filled.toNat)) (afterBlock data s) := by
  rw [buffer, bufferLoop_block _ hs h]
  have hdrop : (data.drop (64 - s.filled.toNat)).length = data.length - (64 - s.filled.toNat) := List.length_drop
  exact bufferLoop_turns _ _ _ (afterBlock data s) hs (Nat.zero_le _) (by omega) (by omega)

theorem buffer_tail {data : List Byte} {s : State} (h : ¬ s.completesBlock data.length) :
    buffer data s = (s.store data).setFilled (s.filled.toNat + data.length) :=
  bufferLoop_tail _ h

/-- What holds where the data complete no block, and holds before a turn if it holds after it, holds at every BUFFER. -/
theorem buffer_induction {motive : List Byte → State → Prop}
    (tail : ∀ data s, s.status = .operational → s.filled.toNat + data.length < 64 → motive data s)
    (block : ∀ data s, s.status = .operational → s.filled.toNat ≤ 63 → s.completesBlock data.length →
      motive (data.drop (64 - s.filled.toNat)) (afterBlock data s) → motive data s) :
    ∀ (data : List Byte) (s : State), s.status = .operational → s.filled.toNat ≤ 63 → motive data s := by
  intro data
  induction hn : data.length using Nat.strong_induction_on generalizing data with
  | _ n ih =>
    intro s hs hf
    by_cases h : s.completesBlock data.length
    · have hblock : 64 ≤ s.filled.toNat + data.length := h
      exact block data s hs hf h
        (ih _ (by omega) _ List.length_drop (afterBlock data s) hs (Nat.zero_le _))
    · exact tail data s hs (Nat.not_le.mp h)

/-! ## BUFFER of a concatenation (R103) -/

theorem Memory.writeBytes_append (x y : List Byte) : ∀ (m : Memory) (j : Nat),
    writeBytes m j (x ++ y) = writeBytes (writeBytes m j x) (j + x.length) y := by
  induction x with
  | nil => exact fun _ _ => rfl
  | cons v x ih =>
    intro m j
    simp only [List.cons_append, writeBytes, ih, List.length_cons, Nat.add_assoc, Nat.add_comm 1]

theorem State.toNat_setFilled {s : State} {n : Nat} (h : n < 128) : (s.setFilled n).filled.toNat = n :=
  Nat.mod_eq_of_lt h

theorem State.setFilled_setFilled (s : State) (m n : Nat) : (s.setFilled m).setFilled n = s.setFilled n := rfl

/-- Storing `y` behind the bytes of `x` is storing both. -/
theorem State.store_append {s : State} {x : List Byte} (y : List Byte) (h : s.filled.toNat + x.length < 128) :
    ((s.store x).setFilled (s.filled.toNat + x.length)).store y =
      (s.store (x ++ y)).setFilled (s.filled.toNat + x.length) := by
  rw [State.store, State.toNat_setFilled h, State.store, State.store, Memory.writeBytes_append]
  rfl

/-- Where the bytes of `x` complete no block, they only stand in the buffer before those of `y`. -/
theorem buffer_append_of_tail {x : List Byte} (y : List Byte) {s : State} (hs : s.status = .operational)
    (hx : s.filled.toNat + x.length < 64) :
    buffer y ((s.store x).setFilled (s.filled.toNat + x.length)) = buffer (x ++ y) s := by
  have hlt : s.filled.toNat + x.length < 128 := by omega
  have hfilled : ((s.store x).setFilled (s.filled.toNat + x.length)).filled.toNat = s.filled.toNat + x.length :=
    State.toNat_setFilled hlt
  have hcompletes : ((s.store x).setFilled (s.filled.toNat + x.length)).completesBlock y.length ↔
      s.completesBlock (x ++ y).length := by
    rw [State.completesBlock, State.completesBlock, hfilled, List.length_append, Nat.add_assoc]
  by_cases h : s.completesBlock (x ++ y).length
  · have hroom : x.length ≤ 64 - s.filled.toNat := by omega
    have htake : (x ++ y).take (64 - s.filled.toNat) = x ++ y.take (64 - (s.filled.toNat + x.length)) := by
      rw [List.take_append, List.take_of_length_le hroom, Nat.sub_sub]
    have hdrop : (x ++ y).drop (64 - s.filled.toNat) = y.drop (64 - (s.filled.toNat + x.length)) := by
      rw [List.drop_append, List.drop_eq_nil_of_le hroom, List.nil_append, Nat.sub_sub]
    have hafter : afterBlock y ((s.store x).setFilled (s.filled.toNat + x.length)) = afterBlock (x ++ y) s := by
      simp only [afterBlock, hfilled, htake, State.store_append _ hlt, State.setFilled_setFilled, State.setFilled_buf,
        State.setFilled_h, State.store_h]
    rw [buffer_block hs (by omega) h, buffer_block (s := (s.store x).setFilled _) hs (by omega) (hcompletes.mpr h),
      hfilled, hafter, hdrop]
  · rw [buffer_tail h, buffer_tail (hcompletes.not.mpr h), hfilled, State.store_append _ hlt, State.setFilled_setFilled,
      List.length_append, Nat.add_assoc]

theorem buffer_append (x y : List Byte) {s : State} (hs : s.status = .operational) (hf : s.filled.toNat ≤ 63) :
    buffer y (buffer x s) = buffer (x ++ y) s := by
  refine buffer_induction (motive := fun x s => buffer y (buffer x s) = buffer (x ++ y) s) ?tail ?block x s hs hf
  case tail =>
    intro x s hs hx
    rw [buffer_tail (Nat.not_le.mpr hx)]
    exact buffer_append_of_tail y hs hx
  case block =>
    intro x s hs hf h ih
    have hblock : 64 ≤ s.filled.toNat + x.length := h
    have hroom : 64 - s.filled.toNat ≤ x.length := by omega
    have h' : s.completesBlock (x ++ y).length := by
      simp only [State.completesBlock, List.length_append]; omega
    have hafter : afterBlock (x ++ y) s = afterBlock x s := by
      simp only [afterBlock, List.take_append_of_le_length hroom]
    rw [buffer_block hs hf h, ih, buffer_block hs hf h', hafter, List.drop_append_of_le_length hroom]

/-! ## The bytes BUFFER stores (20_memory.md R31, R32) -/

/-- `t` has in BUF the bytes of `data` at the addresses they enter from `s`, where the last to go to an address
stands, and every other byte of BUF as in `s`. -/
structure StoresBytes (data : List Byte) (s t : State) : Prop where
  stored : ∀ k < data.length, data.length ≤ k + 64 →
    Memory.read t.buf (bufferAddress s.filled.toNat k) = data.getD k 0
  kept : ∀ a, (∀ k < data.length, bufferAddress s.filled.toNat k ≠ a) → Memory.read t.buf a = Memory.read s.buf a

theorem bufferAddress_below {filled k : Nat} (h : filled + k < 64) : bufferAddress filled k = filled + k :=
  Nat.mod_eq_of_lt h

/-- Past the end of a block the addresses start again at 0. -/
theorem bufferAddress_next_block {filled : Nat} (hf : filled ≤ 63) (k : Nat) :
    bufferAddress filled (64 - filled + k) = bufferAddress 0 k := by
  unfold bufferAddress
  omega

/-- Bytes that fit into the buffer go to consecutive addresses. -/
theorem store_storesBytes {data : List Byte} {s : State} (hw : s.BufInv) (h : s.filled.toNat + data.length ≤ 64) :
    StoresBytes data s (s.store data) where
  stored k hk _ := by
    rw [bufferAddress_below (by omega), State.store_buf, Memory.read_writeBytes hw data h, if_pos (by omega),
      Nat.add_sub_cancel_left]
  kept a ha := by
    rw [State.store_buf, Memory.read_writeBytes hw data h]
    refine if_neg fun ⟨hle, hlt⟩ => ha (a - s.filled.toNat) (by omega) ?_
    rw [bufferAddress_below (by omega)]
    omega

/-- A turn stores the bytes that complete the block, and the turns after it store the rest over them. -/
theorem storesBytes_of_block {data : List Byte} {s t : State} (hw : s.BufInv) (hf : s.filled.toNat ≤ 63)
    (h : s.completesBlock data.length)
    (hrest : StoresBytes (data.drop (64 - s.filled.toNat)) (afterBlock data s) t) : StoresBytes data s t := by
  have hblock : 64 ≤ s.filled.toNat + data.length := h
  have htake : (data.take (64 - s.filled.toNat)).length = 64 - s.filled.toNat := by
    simp only [List.length_take]; omega
  have hdrop : (data.drop (64 - s.filled.toNat)).length = data.length - (64 - s.filled.toNat) := List.length_drop
  have hfilled : (afterBlock data s).filled.toNat = 0 := rfl
  obtain ⟨fstored, fkept⟩ := store_storesBytes (data := data.take (64 - s.filled.toNat)) hw (by omega)
  obtain ⟨rstored, rkept⟩ := hrest
  rw [hfilled, hdrop] at rstored rkept
  refine ⟨fun k hk hlast => ?_, fun a ha => ?_⟩
  · rcases Nat.lt_or_ge k (64 - s.filled.toNat) with hfirst | hlater
    · have hover : ∀ k' < data.length - (64 - s.filled.toNat), bufferAddress 0 k' ≠ bufferAddress s.filled.toNat k := by
        intro k' hk'
        rw [bufferAddress_below (by omega), bufferAddress_below (by omega)]
        omega
      rw [rkept _ hover]
      refine (fstored k (by omega) (by omega)).trans ?_
      simp [List.getD_eq_getElem?_getD, hfirst]
    · obtain ⟨k', rfl⟩ := Nat.exists_eq_add_of_le hlater
      rw [bufferAddress_next_block hf, rstored k' (by omega) (by omega)]
      simp [List.getD_eq_getElem?_getD]
  · rw [rkept a fun k hk => bufferAddress_next_block hf k ▸ ha _ (by omega)]
    exact fkept a fun k hk => ha k (by omega)

theorem buffer_storesBytes (data : List Byte) {s : State} (hs : s.status = .operational) (hf : s.filled.toNat ≤ 63)
    (hw : s.BufInv) : StoresBytes data s (buffer data s) := by
  refine buffer_induction (motive := fun data s => s.BufInv → StoresBytes data s (buffer data s)) ?tail ?block
    data s hs hf hw
  case tail =>
    intro data s _ hlt hw
    rw [buffer_tail (Nat.not_le.mpr hlt)]
    obtain ⟨hstored, hkept⟩ := store_storesBytes hw (Nat.le_of_lt hlt)
    exact ⟨hstored, hkept⟩
  case block =>
    intro data s hs hf h ih hw
    have hlen : s.filled.toNat + (data.take (64 - s.filled.toNat)).length ≤ 64 := by
      simp only [List.length_take]; omega
    rw [buffer_block hs hf h]
    exact storesBytes_of_block hw hf h (ih (Memory.wf_writeBytes hw _ hlen))

/-- Settles O6: the buffering path does the storing (`buffer_storesBytes`), and counting the bytes stores none. -/
theorem updateStoresOnlyItsBytes : Obligations.UpdateStoresOnlyItsBytes := by
  unfold Obligations.UpdateStoresOnlyItsBytes
  intro data s hs hf hw hlen
  obtain ⟨hstored, hkept⟩ := buffer_storesBytes data (s := s.addLength data.length) hs hf hw
  exact ⟨_, exec_update_absorbs hs hlen, hstored, hkept⟩

/-! ## Repeated commands (20_memory.md R40) -/

theorem runCommands_pair {i j : Instr} {s t : State} (h : exec i s = .next t) : runCommands [i, j] s = exec j t := by
  simp only [runCommands, h]
  cases exec j t <;> rfl

theorem State.addLength_addLength (s : State) (m n : Nat) : (s.addLength m).addLength n = s.addLength (m + n) := by
  simp only [State.addLength, State.mk.injEq, true_and, and_true]
  apply BitVec.eq_of_toNat_eq
  simp [Nat.add_assoc]

theorem buffer_addLength (data : List Byte) (n : Nat) {s : State} (hs : s.status = .operational) :
    (buffer data s).addLength n = buffer data (s.addLength n) :=
  bufferLoop_addLength _ n data s hs

/-- Two UPDATEs that take no overflow fault are one UPDATE of the concatenation. -/
theorem runCommands_update_update {x y : List Byte} {s : State} (hs : s.status = .operational)
    (hf : s.filled.toNat ≤ 63) (h : Config.lenOverflow = .fault → s.totalLen.toNat + x.length + y.length ≤ 2 ^ 64 - 1) :
    ∃ t, runCommands [.update x, .update y] s = .next t ∧ exec (.update (x ++ y)) s = .next t := by
  have hx : exec (.update x) s = .next (buffer x (s.addLength x.length)) :=
    exec_update_absorbs hs fun hp => by have := h hp; omega
  have hframe := buffer_frame x (s := s.addLength x.length) hs
  have htotal : (buffer x (s.addLength x.length)).totalLen.toNat ≤ s.totalLen.toNat + x.length := by
    rw [hframe.totalLen, State.addLength_totalLen, BitVec.toNat_ofNat]
    exact Nat.mod_le _ _
  have hy := exec_update_absorbs (data := y) hframe.status fun hp => by have := h hp; omega
  have hxy : exec (.update (x ++ y)) s = .next (buffer (x ++ y) (s.addLength (x ++ y).length)) :=
    exec_update_absorbs hs fun hp => by have := h hp; rw [List.length_append]; omega
  refine ⟨_, (runCommands_pair hx).trans hy, hxy.trans ?_⟩
  rw [buffer_addLength x y.length (s := s.addLength x.length) hs, State.addLength_addLength, ← List.length_append]
  exact congrArg _ (buffer_append x y (s := s.addLength (x ++ y).length) hs hf).symm

/-! ## The padding is one BUFFER (43_finalize.md R105, R108) -/

/-- How many zero bytes step 3 of R105 writes at this FILLED: none where the length field still fits. -/
def overflowFill (filled : Nat) : Nat := if 56 < filled then 64 - filled else 0

theorem zeroFill_append (m n : Nat) : zeroFill m ++ zeroFill n = zeroFill (m + n) := List.replicate_append_replicate

@[simp] theorem length_zeroFill (n : Nat) : (zeroFill n).length = n := List.length_replicate

theorem padOverflowBlock_eq_buffer {s : State} (hf : s.filled.toNat ≤ 63) :
    padOverflowBlock s = buffer (zeroFill (overflowFill s.filled.toNat)) s := by
  by_cases h : s.noRoomForLength
  · rw [padOverflowBlock_of_noRoom h, overflowFill, if_pos h]
  · rw [padOverflowBlock_of_room h, overflowFill, if_neg h]
    exact (buffer_nil hf).symm

/-- The zero bytes of steps 3 and 4 of R105, after the marker, are the `z` zero bytes of R108. -/
theorem overflowFill_add_eq_zeroCount (filled : Nat) :
    overflowFill ((filled + 1) % 64) +
      (56 - ((filled + 1) % 64 + overflowFill ((filled + 1) % 64)) % 64) = zeroCount filled := by
  unfold overflowFill zeroCount
  split <;> omega

/-- DIGEST buffers the padding of R108 for the FILLED and the TOTAL_LEN it finds. -/
theorem padMessage_eq_buffer {s : State} (hs : s.status = .operational) (hf : s.filled.toNat ≤ 63) (hw : s.BufInv) :
    padMessage s =
      buffer ([padMarker] ++ zeroFill (zeroCount s.filled.toNat) ++ lengthField s.totalLen) s := by
  have hmark : (padMark s).filled.toNat = (s.filled.toNat + 1) % 64 := (buffer_result [padMarker] hs hf hw).filled
  have hmark_le : (padMark s).filled.toNat ≤ 63 := by omega
  have h2 : padOverflowBlock (padMark s) =
      buffer ([padMarker] ++ zeroFill (overflowFill (padMark s).filled.toNat)) s := by
    rw [padOverflowBlock_eq_buffer hmark_le, padMark, buffer_append _ _ hs hf]
  have hfill : (padOverflowBlock (padMark s)).filled.toNat =
      ((padMark s).filled.toNat + overflowFill (padMark s).filled.toNat) % 64 := by
    rw [h2, (buffer_result _ hs hf hw).filled, hmark]
    simp only [List.length_append, List.length_singleton, length_zeroFill]
    omega
  have h3 : padToLength (padOverflowBlock (padMark s)) =
      buffer ([padMarker] ++ zeroFill (zeroCount s.filled.toNat)) s := by
    rw [padToLength, hfill, h2, buffer_append _ _ hs hf, List.append_assoc, zeroFill_append, hmark,
      overflowFill_add_eq_zeroCount]
  rw [padMessage, h3, buffer_append _ _ hs hf]

/-- From the initial state the padding alone is hashed: the digest is that of the empty message. -/
theorem padMessage_h_of_initial {s : State} (hs : s.status = .operational) (hi : s.Initial) (hw : s.BufInv) :
    (padMessage s).h = messageDigest [] := by
  have hle : s.filled.toNat ≤ 63 := by simp [hi.filled]
  have hpending : s.pending = [] := by simp [State.pending, hi.filled, Memory.readBytes]
  rw [padMessage_eq_buffer hs hle hw, (buffer_result _ hs hle hw).h, hpending, hi.h, hi.filled, hi.totalLen]
  rfl

/-- Settles O17: a command after NEW or DIGEST finds a loaded engine, and two UPDATEs are one of the concatenation. -/
theorem idempotencyOfCommands : Obligations.IdempotencyOfCommands := by
  unfold Obligations.IdempotencyOfCommands
  refine ⟨fun s hs => ?_, fun data s hs hf _ hlen => runCommands_update_update hs hf hlen,
    fun s hs hf => exec_update_nil hs hf, fun s hs => ?_⟩
  · rw [runCommands_pair (exec_new hs), exec_new hs]
    exact exec_new (s := s.loadInitial) hs
  · have hempty : (padMessage (s.loadInitial.respond (responseOf (padMessage s).h))).h = messageDigest [] :=
      padMessage_h_of_initial hs (respond_initial (loadInitial_initial s) _) Memory.wf_nil
    have hsecond := exec_digest (s := s.loadInitial.respond (responseOf (padMessage s).h)) hs
    rw [hempty] at hsecond
    exact ⟨_, responseOf (padMessage s).h, (runCommands_pair (exec_digest hs)).trans hsecond, by simp⟩

/-! ## Several engines (20_memory.md R48) -/

/-- The engine after its own step; it stands still where that is no next state. -/
def State.afterStep (s : State) : State := (nextState? (step s)).getD s

theorem Bank.stepAt_eq_modify (b : Bank) (k : Nat) : b.stepAt k = b.modify k State.afterStep := by
  rw [List.modify_eq_set_getElem?, Bank.stepAt]
  cases hk : b[k]? with
  | none => rfl
  | some s =>
    obtain ⟨hlt, rfl⟩ := List.getElem?_eq_some_iff.mp hk
    cases hn : nextState? (step b[k]) with
    | none => simp [State.afterStep, hn]
    | some t => simp [State.afterStep, hn]

/-- Settles O24: a step at `k` modifies element `k` of the bank by itself alone. -/
theorem enginesAreIndependent : Obligations.EnginesAreIndependent := by
  unfold Obligations.EnginesAreIndependent
  simp only [Bank.stepAt_eq_modify]
  refine ⟨fun b j k hne => List.getElem?_modify_ne _ _ hne.symm, fun b j k hne => List.modify_modify_ne _ _ _ hne.symm,
    fun b k s t hk hstep => ?_⟩
  simp [hk, State.afterStep, hstep, nextState?]

/-! ## Words of a block (20_memory.md R33) -/

/-- A byte moved up within a word loses no bit. -/
theorem toNat_zeroExtend_shiftLeft (b : Byte) {n : Nat} (hn : n ≤ 24) :
    (b.zeroExtend 32 <<< n : Word).toNat = b.toNat * 2 ^ n := by
  have hfits : b.toNat * 2 ^ n < 2 ^ 32 :=
    calc b.toNat * 2 ^ n < 2 ^ 8 * 2 ^ n := Nat.mul_lt_mul_of_pos_right b.isLt (Nat.two_pow_pos n)
      _ ≤ 2 ^ 8 * 2 ^ 24 := Nat.mul_le_mul_left _ (Nat.pow_le_pow_right (by decide) hn)
      _ = 2 ^ 32 := rfl
  rw [BitVec.toNat_shiftLeft, BitVec.toNat_setWidth_of_le (by decide), Nat.shiftLeft_eq, Nat.mod_eq_of_lt hfits]

/-- A word without bits below `n` and one with no other bits: `|||` adds them. -/
theorem toNat_or_eq_add {x y : Word} (n : Nat) (hx : 2 ^ n ∣ x.toNat) (hy : y.toNat < 2 ^ n) :
    (x ||| y).toNat = x.toNat + y.toNat := by
  obtain ⟨a, ha⟩ := hx
  rw [BitVec.toNat_or, ha, Nat.two_pow_add_eq_or_of_lt hy]

/-- Settles O42: the four bytes of a word stand in disjoint bits. -/
theorem blockWordsAreBigEndian : Obligations.BlockWordsAreBigEndian := by
  unfold Obligations.BlockWordsAreBigEndian
  intro blk t
  unfold be32
  generalize blk.getD (4 * t) 0 = b0
  generalize blk.getD (4 * t + 1) 0 = b1
  generalize blk.getD (4 * t + 2) 0 = b2
  generalize blk.getD (4 * t + 3) 0 = b3
  have h0 := toNat_zeroExtend_shiftLeft b0 (n := 24) (by decide)
  have h1 := toNat_zeroExtend_shiftLeft b1 (n := 16) (by decide)
  have h2 := toNat_zeroExtend_shiftLeft b2 (n := 8) (by decide)
  have h3 : (b3.zeroExtend 32).toNat = b3.toNat := BitVec.toNat_setWidth_of_le (by decide)
  have h01 := toNat_or_eq_add 24 (x := b0.zeroExtend 32 <<< 24) (y := b1.zeroExtend 32 <<< 16) (by omega) (by omega)
  have h012 := toNat_or_eq_add 16 (x := b0.zeroExtend 32 <<< 24 ||| b1.zeroExtend 32 <<< 16)
    (y := b2.zeroExtend 32 <<< 8) (by omega) (by omega)
  rw [toNat_or_eq_add 8 (by omega) (by omega)]
  omega

end Sys2Proof.Machine

/-! SUPPORT. The statements of 30_encoding.md: what the decoder answers on each opcode byte, that it and the encoder are
inverse to each other, the step over the caller's stream, the responses, and the text form of commands. -/

namespace Sys2Proof

/-! ## The opcode byte (R52, R53) -/

theorem decode_opNew (rest : List Byte) : decode (opNew :: rest) = .command .new rest := rfl

theorem decode_opUpdate (rest : List Byte) : decode (opUpdate :: rest) = decodeUpdate rest := rfl

theorem decode_opDigest (rest : List Byte) : decode (opDigest :: rest) = .command .digest rest := rfl

theorem decode_reservedOpcode {op : Byte} (h : 0x03 ≤ op.toNat) (rest : List Byte) :
    decode (op :: rest) = .reserved op := by
  have hne : ∀ {x : Byte}, x.toNat < 3 → op ≠ x := fun hx heq => by subst heq; omega
  rw [decode, if_neg (hne (by decide)), if_neg (hne (by decide)), if_neg (hne (by decide))]

theorem opcode_cases (op : Byte) : op = opNew ∨ op = opUpdate ∨ op = opDigest ∨ 0x03 ≤ op.toNat := by
  simp only [opNew, opUpdate, opDigest, ← BitVec.toNat_inj]
  simp only [BitVec.toNat_ofNat]
  omega

/-! ## Format C1 after the opcode byte (R50, R53) -/

theorem decodeUpdate_truncated {bytes : List Byte} (h : bytes.length < 8 + beNat (bytes.take 8)) :
    decodeUpdate bytes = .incomplete := by
  by_cases hfield : (bytes.take 8).length < 8
  · exact if_pos hfield
  · have hbody : (bytes.drop 8).length < beNat (bytes.take 8) := by
      simp only [List.length_take, List.length_drop] at hfield ⊢
      omega
    simp only [decodeUpdate, if_neg hfield, if_pos hbody]

theorem decodeUpdate_whole {bytes : List Byte} (h : 8 + beNat (bytes.take 8) ≤ bytes.length) :
    decodeUpdate bytes = .command (.update ((bytes.drop 8).take (beNat (bytes.take 8))))
      ((bytes.drop 8).drop (beNat (bytes.take 8))) := by
  have hfield : ¬ (bytes.take 8).length < 8 := by
    rw [List.length_take]; omega
  have hbody : ¬ (bytes.drop 8).length < beNat (bytes.take 8) := by
    rw [List.length_drop]; omega
  simp only [decodeUpdate, if_neg hfield, if_neg hbody]

theorem decodeUpdate_eq_incomplete_iff {bytes : List Byte} :
    decodeUpdate bytes = .incomplete ↔ bytes.length < 8 + beNat (bytes.take 8) := by
  refine ⟨fun h => ?_, decodeUpdate_truncated⟩
  by_contra hwhole
  rw [decodeUpdate_whole (Nat.not_lt.mp hwhole)] at h
  cases h

theorem decodeUpdate_eq_command {bytes rest : List Byte} {i : Instr} (h : decodeUpdate bytes = .command i rest) :
    ∃ data, i = .update data ∧ data.length = beNat (bytes.take 8) ∧ (bytes.take 8).length = 8 ∧
      bytes = bytes.take 8 ++ data ++ rest := by
  rcases Nat.lt_or_ge bytes.length (8 + beNat (bytes.take 8)) with hshort | hwhole
  · rw [decodeUpdate_truncated hshort] at h
    cases h
  · rw [decodeUpdate_whole hwhole] at h
    obtain ⟨rfl, rfl⟩ := Decoded.command.inj h
    refine ⟨_, rfl, ?_, ?_, ?_⟩
    · rw [List.length_take, List.length_drop]; omega
    · rw [List.length_take]; omega
    · rw [List.append_assoc, List.take_append_drop, List.take_append_drop]

theorem decodeUpdate_ne_reserved (bytes : List Byte) (op : Byte) : decodeUpdate bytes ≠ .reserved op := by
  rcases Nat.lt_or_ge bytes.length (8 + beNat (bytes.take 8)) with hshort | hwhole
  · rw [decodeUpdate_truncated hshort]; exact Decoded.noConfusion
  · rw [decodeUpdate_whole hwhole]; exact Decoded.noConfusion

/-! ## What the decoder refuses (R53) -/

theorem decode_eq_reserved_iff {bytes : List Byte} {op : Byte} :
    decode bytes = .reserved op ↔ ∃ rest, bytes = op :: rest ∧ 0x03 ≤ op.toNat := by
  constructor
  · intro h
    cases bytes with
    | nil => cases h
    | cons b rest =>
      obtain rfl | rfl | rfl | hb := opcode_cases b
      · cases h
      · exact absurd h (decodeUpdate_ne_reserved rest op)
      · cases h
      · rw [decode_reservedOpcode hb] at h
        obtain rfl := Decoded.reserved.inj h
        exact ⟨rest, rfl, hb⟩
  · rintro ⟨rest, rfl, hop⟩
    exact decode_reservedOpcode hop rest

theorem decode_eq_incomplete_iff {bytes : List Byte} :
    decode bytes = .incomplete ↔ ∃ rest, bytes = opUpdate :: rest ∧ rest.length < 8 + beNat (rest.take 8) := by
  constructor
  · intro h
    cases bytes with
    | nil => cases h
    | cons b rest =>
      obtain rfl | rfl | rfl | hb := opcode_cases b
      · cases h
      · exact ⟨rest, rfl, decodeUpdate_eq_incomplete_iff.mp h⟩
      · cases h
      · rw [decode_reservedOpcode hb] at h
        cases h
  · rintro ⟨rest, rfl, hshort⟩
    exact decodeUpdate_truncated hshort

/-! ## Decoding and encoding are inverse (R50, R51) -/

/-- Settles O26: the length field of a well-formed UPDATE reads as its payload's length (`decodeUpdate_payload`). -/
theorem decodeEncodeRoundTrip : Obligations.DecodeEncodeRoundTrip := by
  unfold Obligations.DecodeEncodeRoundTrip
  exact fun i rest hi => decode_encode hi rest

/-- A big-endian field is its bytes as base-256 digits, the last byte the least significant. -/
theorem beNat_eq_ofDigits (bytes : List Byte) : beNat bytes = Nat.ofDigits 256 (bytes.reverse.map BitVec.toNat) := by
  induction bytes using List.reverseRecOn with
  | nil => rfl
  | append_singleton bytes b ih =>
    rw [beNat_append_singleton, ih, List.reverse_concat, List.map_cons, Nat.ofDigits_cons]
    ring

theorem toNat_lt_of_mem_map {bytes : List Byte} {d : Nat} (h : d ∈ bytes.map BitVec.toNat) : d < 256 := by
  obtain ⟨b, -, rfl⟩ := List.mem_map.mp h
  exact b.isLt

theorem beNat_lt (bytes : List Byte) : beNat bytes < 256 ^ bytes.length := by
  have h := Nat.ofDigits_lt_base_pow_length (l := bytes.reverse.map BitVec.toNat) (by decide : 1 < 256)
    fun _ => toNat_lt_of_mem_map
  rwa [← beNat_eq_ofDigits, List.length_map, List.length_reverse] at h

theorem beNat_inj {xs ys : List Byte} (hlen : xs.length = ys.length) (h : beNat xs = beNat ys) : xs = ys := by
  rw [beNat_eq_ofDigits, beNat_eq_ofDigits] at h
  have hdigits := Nat.ofDigits_inj_of_len_eq (by decide : 1 < 256) (by simpa using hlen)
    (fun _ => toNat_lt_of_mem_map) (fun _ => toNat_lt_of_mem_map) h
  exact List.reverse_injective (List.map_injective_iff.mpr (fun _ _ => BitVec.eq_of_toNat_eq) hdigits)

theorem beNat_lt_of_length_eq {field : List Byte} (h : field.length = 8) : beNat field < 2 ^ 64 := by
  have hlt := beNat_lt field
  rwa [h] at hlt

/-- A value has one spelling as eight bytes. -/
theorem be64Bytes_beNat {field : List Byte} (h : field.length = 8) :
    be64Bytes (BitVec.ofNat 64 (beNat field)) = field := by
  refine beNat_inj (by rw [length_be64Bytes, h]) ?_
  rw [beNat_be64Bytes, BitVec.toNat_ofNat, Nat.mod_eq_of_lt (beNat_lt_of_length_eq h)]

theorem encode_update (data : List Byte) :
    encode (.update data) = opUpdate :: (be64Bytes (BitVec.ofNat 64 data.length) ++ data) := rfl

theorem wellFormed_update {data : List Byte} (h : data.length < 2 ^ 64) : (Instr.update data).WellFormed := if_pos h

theorem length_encode (i : Instr) : (encode i).length = encodedLength i := by
  cases i with
  | new => rfl
  | update data =>
    rw [encode_update, List.length_cons, List.length_append, length_be64Bytes, encodedLength]
    omega
  | digest => rfl

/-- What the decoder reads as a command is that command's encoding and the rest. -/
theorem eq_encode_of_decode {i : Instr} {bytes rest : List Byte} (h : decode bytes = .command i rest) :
    i.WellFormed ∧ bytes = encode i ++ rest := by
  cases bytes with
  | nil => cases h
  | cons b tail =>
    obtain rfl | rfl | rfl | hb := opcode_cases b
    · obtain ⟨rfl, rfl⟩ := Decoded.command.inj h
      exact ⟨rfl, rfl⟩
    · obtain ⟨data, rfl, hlen, hfield, htail⟩ := decodeUpdate_eq_command h
      refine ⟨wellFormed_update (hlen ▸ beNat_lt_of_length_eq hfield), ?_⟩
      rw [encode_update, hlen, be64Bytes_beNat hfield, List.cons_append, ← htail]
    · obtain ⟨rfl, rfl⟩ := Decoded.command.inj h
      exact ⟨rfl, rfl⟩
    · rw [decode_reservedOpcode hb] at h
      cases h

/-- Settles O27: eight bytes are the one spelling of their value (`be64Bytes_beNat`), and the decoder takes exactly the
payload they announce. -/
theorem encodeDecodeRoundTrip : Obligations.EncodeDecodeRoundTrip := by
  unfold Obligations.EncodeDecodeRoundTrip
  exact fun i bytes rest h => eq_encode_of_decode h

/-- Settles O28: the decoder evaluates on each written-out stream. -/
theorem writtenWordsDecode : Obligations.WrittenWordsDecode := by
  unfold Obligations.WrittenWordsDecode
  decide

end Sys2Proof

namespace Sys2Proof.Machine

/-! ## A refused command (R53; 60_exceptions.md R136) -/

theorem step_marked {s : State} {r : Refusal} (h : s.refusal = some r) : step s = .refused r := by
  rw [step, fetch_marked h]

theorem step_reserved {s : State} {op : Byte} (hr : s.refusal = none) (hd : decode s.stream = .reserved op) :
    step s = .next (s.refuse (.reservedOpcode op s.offset)) := by
  rw [step, fetch_reserved hr hd]

theorem step_incomplete {s : State} (hr : s.refusal = none) (hd : decode s.stream = .incomplete) :
    step s = .next (s.refuse (.incompleteCommand s.offset)) := by
  rw [step, fetch_incomplete hr hd]

/-- A marked run shows nothing new. -/
theorem observeStream_marked {s : State} {r : Refusal} (h : s.refusal = some r) (n : Nat) :
    observeStream n s = s.observation := by
  cases n with
  | zero => rfl
  | succ n => rw [observeStream, step_marked h]

/-- Settles O21: the refused step sets the mark, and `fetch` looks at the mark before it decodes. -/
theorem refusedCommandsMarkTheRun : Obligations.RefusedCommandsMarkTheRun := by
  unfold Obligations.RefusedCommandsMarkTheRun
  refine ⟨fun bytes op => decode_eq_reserved_iff, fun bytes => ?_, fun s op => step_reserved, fun s => step_incomplete,
    fun s r h => ⟨step_marked h, fun n => ⟨observeStream_marked h n, ?_⟩⟩⟩
  · have hshort (rest : List Byte) : rest.length < 8 + beNat (rest.take 8) ↔
        rest.length < 8 ∨ rest.length < 8 + beNat (rest.take 8) := by omega
    simp only [← hshort]
    exact decode_eq_incomplete_iff
  · rw [observeStream_marked h, State.observation, h, Option.isSome_some]

/-! ## A decoded command (R50; 60_exceptions.md R145) -/

theorem step_command {s : State} {i : Instr} {rest : List Byte} (hr : s.refusal = none)
    (hd : decode s.stream = .command i rest) : step s = exec i (s.consume rest) := by
  rw [step, fetch_command hr hd]

theorem step_nothing {s : State} (hr : s.refusal = none) (hd : decode s.stream = .nothing)
    (hs : s.status = .operational) : step s = .next s := by
  rw [step, fetch_nothing hr hd]
  exact perform_operational hs _

/-- Settles O25: the step issues what `decode` reads at the head of the stream, with its bytes consumed. -/
theorem stepRunsDecodedCommand : Obligations.StepRunsDecodedCommand := by
  unfold Obligations.StepRunsDecodedCommand
  refine ⟨fun s i rest => step_command, fun s i rest hr hi hstream => ?_, fun s hr hempty hs => ?_⟩
  · have htaken : s.stream.length - rest.length = encodedLength i := by
      rw [hstream, List.length_append, length_encode, Nat.add_sub_cancel]
    rw [step_command hr (hstream ▸ decode_encode hi rest), State.consume, htaken]
  · exact step_nothing hr (hempty ▸ rfl) hs

/-! ## Responses (R54) -/

theorem absorb_responses (policy : LenOverflow) (data : List Byte) {s : State} (hs : s.status = .operational) :
    (absorb policy data s).responses = s.responses := by
  rcases absorb_cases policy data s with h | h <;> rw [h]
  · rfl
  · exact (buffer_frame data (s := s.addLength data.length) hs).responses

theorem toNat_hexDigit : ∀ v : BitVec 4,
    (hexDigit v).toNat = if v.toNat < 10 then 0x30 + v.toNat else 0x61 + (v.toNat - 10) := by decide

theorem toNat_hexDigit_lt (v : BitVec 4) : (hexDigit v).toNat < 2 ^ 8 := by
  have hv := v.isLt
  rw [toNat_hexDigit]
  split <;> omega

theorem toNat_lt_of_mem_format {d : Words8} {c : Char} (h : c ∈ format d) : c.toNat < 2 ^ 8 := by
  simp only [format, formatWord, List.mem_flatMap, List.mem_map] at h
  obtain ⟨_, -, _, -, rfl⟩ := h
  exact toNat_hexDigit_lt _

/-- Every character of a formatted digest is a byte of the response. -/
theorem toNat_getD_responseOf (d : Words8) {k : Nat} (hk : k < 64) :
    ((responseOf d).getD k 0).toNat = ((format d).getD k '0').toNat := by
  have hresponse : k < (responseOf d).length := by rwa [length_responseOf]
  have hformat : k < (format d).length := by simpa [responseOf, asciiBytes] using hresponse
  rw [List.getD_eq_getElem _ _ hresponse, List.getD_eq_getElem _ _ hformat]
  simp only [responseOf, asciiBytes, List.getElem_map, BitVec.toNat_ofNat]
  exact Nat.mod_eq_of_lt (toNat_lt_of_mem_format (List.getElem_mem hformat))

/-- Settles O35: only `finish` responds, and it responds the formatted digest, whose characters are ASCII. -/
theorem onlyDigestResponds : Obligations.OnlyDigestResponds := by
  unfold Obligations.OnlyDigestResponds
  refine ⟨fun s t h => ?_, fun data s t h => ?_, fun s hs => ⟨_, _, exec_digest hs, rfl⟩,
    fun d => ⟨length_responseOf d, fun k => toNat_getD_responseOf d⟩, toNat_hexDigit⟩
  · obtain ⟨-, rfl⟩ := perform_eq_next.mp h
    rfl
  · obtain ⟨hs, rfl⟩ := perform_eq_next.mp h
    exact absorb_responses _ data hs

/-! ## A line with a mnemonic and one string (R55) -/

/-- A character that goes on with a word: it neither ends the word nor the line. -/
def isWordChar (c : Char) : Bool := !isSemicolon c && !isQuote c && !isBlank c && c.toNat != 0x0A

theorem isWordChar_iff {c : Char} : isWordChar c = true ↔
    isSemicolon c = false ∧ isQuote c = false ∧ isBlank c = false ∧ c.toNat ≠ 0x0A := by
  simp [isWordChar, and_assoc]

/-- The double quote. -/
def quote : Char := Char.ofNat 0x22

/-- The line of a mnemonic and one string item. -/
def stringLine (mnemonic chars : List Char) : List Char := mnemonic ++ ' ' :: quote :: (chars ++ [quote])

theorem linesOf_oneLine (text : List Char) : ∀ acc, (∀ c ∈ text, c.toNat ≠ 0x0A) →
    linesOf acc text = [acc.reverse ++ text] := by
  induction text with
  | nil => exact fun acc _ => by rw [linesOf, List.append_nil]
  | cons c cs ih =>
    intro acc h
    obtain ⟨hc, hcs⟩ := List.forall_mem_cons.mp h
    rw [linesOf, if_neg hc, ih _ hcs, List.reverse_cons, List.append_assoc, List.singleton_append]

theorem lexLine_inWord (word rest : List Char) : ∀ acc, (∀ c ∈ word, isWordChar c = true) →
    lexLine (.inWord acc) (word ++ ' ' :: rest) = (lexLine .gap rest).map (.word (acc.reverse ++ word) :: ·) := by
  induction word with
  | nil =>
    intro acc _
    rw [List.append_nil]
    rfl
  | cons c cs ih =>
    intro acc h
    obtain ⟨hc, hcs⟩ := List.forall_mem_cons.mp h
    obtain ⟨hsemicolon, hquote, hblank, -⟩ := isWordChar_iff.mp hc
    simp only [List.cons_append, lexLine, hsemicolon, hquote, hblank, Bool.false_eq_true, if_false]
    rw [ih _ hcs, List.reverse_cons, List.append_assoc, List.singleton_append]

theorem isQuote_of_isStringChar {c : Char} (h : isStringChar c = true) : isQuote c = false := by
  simp only [isStringChar, Bool.and_eq_true, bne_iff_ne] at h
  obtain ⟨⟨-, hquote⟩, -⟩ := h
  exact beq_eq_false_iff_ne.mpr hquote

theorem lexLine_inString (chars rest : List Char) : ∀ acc, (∀ c ∈ chars, isStringChar c = true) →
    lexLine (.inString acc) (chars ++ quote :: rest) =
      (lexLine .gap rest).map (.quoted (acc.reverse ++ chars) :: ·) := by
  induction chars with
  | nil =>
    intro acc _
    rw [List.append_nil]
    rfl
  | cons c cs ih =>
    intro acc h
    obtain ⟨hc, hcs⟩ := List.forall_mem_cons.mp h
    simp only [List.cons_append, lexLine, isQuote_of_isStringChar hc, hc, Bool.false_eq_true, if_false, if_true]
    rw [ih _ hcs, List.reverse_cons, List.append_assoc, List.singleton_append]

theorem lexLine_stringLine {mnemonic chars : List Char} (hne : mnemonic ≠ [])
    (hword : ∀ c ∈ mnemonic, isWordChar c = true) (hchars : ∀ c ∈ chars, isStringChar c = true) :
    lexLine .gap (stringLine mnemonic chars) = some [.word mnemonic, .quoted chars] := by
  obtain ⟨c, cs, rfl⟩ := List.exists_cons_of_ne_nil hne
  obtain ⟨hc, hcs⟩ := List.forall_mem_cons.mp hword
  obtain ⟨hsemicolon, hquote, hblank, -⟩ := isWordChar_iff.mp hc
  have hstring : lexLine .gap (quote :: (chars ++ [quote])) = some [.quoted chars] :=
    lexLine_inString chars [] [] hchars
  simp only [stringLine, List.cons_append, lexLine, hsemicolon, hquote, hblank, Bool.false_eq_true, if_false]
  rw [lexLine_inWord cs _ _ hcs, hstring]
  rfl

theorem toNat_ne_newline_of_mem_stringLine {mnemonic chars : List Char} (hword : ∀ c ∈ mnemonic, isWordChar c = true)
    (hchars : ∀ c ∈ chars, isStringChar c = true) : ∀ c ∈ stringLine mnemonic chars, c.toNat ≠ 0x0A := by
  intro c hc
  simp only [stringLine, List.mem_append, List.mem_cons, List.not_mem_nil, or_false] at hc
  obtain hc | rfl | rfl | hc | rfl := hc
  · obtain ⟨-, -, -, hline⟩ := isWordChar_iff.mp (hword c hc)
    exact hline
  · decide
  · decide
  · have h := hchars c hc
    simp only [isStringChar, Bool.and_eq_true, decide_eq_true_eq] at h
    omega
  · decide

theorem parseProgram_stringLine {mnemonic chars : List Char} (hne : mnemonic ≠ [])
    (hword : ∀ c ∈ mnemonic, isWordChar c = true) (hchars : ∀ c ∈ chars, isStringChar c = true) :
    parseProgram (stringLine mnemonic chars) = parseLine [.word mnemonic, .quoted chars] := by
  have hline : linesOf [] (stringLine mnemonic chars) = [stringLine mnemonic chars] :=
    linesOf_oneLine _ [] (toNat_ne_newline_of_mem_stringLine hword hchars)
  rw [parseProgram, hline, List.mapM_cons, List.mapM_nil, lexLine_stringLine hne hword hchars]
  cases h : parseLine [.word mnemonic, .quoted chars] <;> simp [h]

theorem payloadBytes_text (chars : List Char) : payloadBytes [.text chars] = asciiBytes chars :=
  List.flatMap_singleton _ _

theorem assembleText_update_string {chars : List Char} (h : ∀ c ∈ chars, isStringChar c = true) :
    assembleText (stringLine "UPDATE".toList chars) = some (encode (.update (asciiBytes chars))) := by
  have hparse : parseProgram (stringLine "UPDATE".toList chars) = some [.update [.text chars]] :=
    parseProgram_stringLine (by decide) (List.all_eq_true.mp (by decide)) h
  have hexpand : expandProgram [.update [.text chars]] = [.update (asciiBytes chars)] := by
    simp [expandProgram, SourceCommand.expand, payloadBytes_text]
  rw [assembleText, hparse, Option.map_some, assemble, hexpand, encodeAll, List.flatMap_singleton]

theorem assembleText_hash_string {chars : List Char} (h : ∀ c ∈ chars, isStringChar c = true) :
    assembleText (stringLine "HASH".toList chars) =
      some (encode .new ++ encode (.update (asciiBytes chars)) ++ encode .digest) := by
  have hparse : parseProgram (stringLine "HASH".toList chars) = some [.hash [.text chars]] :=
    parseProgram_stringLine (by decide) (List.all_eq_true.mp (by decide)) h
  have hexpand : expandProgram [.hash [.text chars]] = [.new, .update (asciiBytes chars), .digest] := by
    simp [expandProgram, SourceCommand.expand, payloadBytes_text]
  rw [assembleText, hparse, Option.map_some, assemble, hexpand, encodeAll]
  simp only [List.flatMap_cons, List.flatMap_nil, List.append_nil, List.append_assoc]

/-- Settles O30: the lexer takes every string character as data up to the closing quote (`lexLine_inString`), so the line
parses to its one command. -/
theorem textAssemblesToStream : Obligations.TextAssemblesToStream := by
  unfold Obligations.TextAssemblesToStream
  refine ⟨fun chars h => ⟨?_, ?_⟩, by decide⟩
  · refine Eq.trans (congrArg assembleText ?_) (assembleText_update_string h)
    simp [stringLine, quote]
  · refine Eq.trans (congrArg assembleText ?_) (assembleText_hash_string h)
    simp [stringLine, quote]

end Sys2Proof.Machine

/-! SUPPORT. The statements of 40_schedule.md: rotations and shifts bit by bit, addition modulo 2^32, the schedule
sigmas, the message schedule, and the 16-word window that stands in for it. -/

namespace Sys2Proof.Machine

/-! ## Rotations and shifts (R56, R57) -/

theorem rotr_eq_rotateRight (x : Word) {n : Nat} (hn : n ≤ 31) : rotr x n = x.rotateRight n := by
  rw [BitVec.rotateRight_def, Nat.mod_eq_of_lt (by omega), rotr]

theorem getLsbD_rotr (x : Word) {n i : Nat} (hn : n ≤ 31) (hi : i ≤ 31) :
    (rotr x n).getLsbD i = x.getLsbD ((i + n) % 32) := by
  have hmod : n % 32 = n := Nat.mod_eq_of_lt (by omega)
  rw [rotr_eq_rotateRight x hn, BitVec.getLsbD_rotateRight, hmod]
  by_cases hlow : i < 32 - n
  · have hbit : (i + n) % 32 = n + i := by omega
    rw [hbit, decide_eq_true hlow, cond_true]
  · have hbit : (i + n) % 32 = i - (32 - n) := by omega
    rw [hbit, decide_eq_false hlow, cond_false, decide_eq_true (by omega), Bool.true_and]

theorem getLsbD_shr (x : Word) (n i : Nat) :
    (shr x n).getLsbD i = (decide (i + n ≤ 31) && x.getLsbD (i + n)) := by
  rw [shr, BitVec.getLsbD_ushiftRight, Nat.add_comm n i]
  by_cases h : i + n ≤ 31
  · rw [decide_eq_true h, Bool.true_and]
  · rw [decide_eq_false h, Bool.false_and, BitVec.getLsbD_of_ge _ _ (by omega)]

/-- A word is its rotation by `n` when moving every bit by `n` places changes no bit. -/
theorem rotr_eq_self {x : Word} {n : Nat} (hn : n ≤ 31) (h : ∀ i ≤ 31, x.getLsbD ((i + n) % 32) = x.getLsbD i) :
    rotr x n = x := by
  refine BitVec.eq_of_getLsbD_eq fun i hi => ?_
  rw [getLsbD_rotr x hn (by omega), h i (by omega)]

/-- Settles O36: a rotation by 0, and one of equal bits, change no bit (`rotr_eq_self`). -/
theorem rotateAndShiftBits : Obligations.RotateAndShiftBits := by
  unfold Obligations.RotateAndShiftBits
  refine ⟨fun x n i hn hi => ⟨getLsbD_rotr x hn hi, getLsbD_shr x n i⟩, fun x => ?_, fun n hn => ⟨?_, ?_⟩, by decide⟩
  · refine rotr_eq_self (by decide) fun i hi => ?_
    rw [Nat.add_zero, Nat.mod_eq_of_lt (by omega)]
  · exact rotr_eq_self hn fun i _ => by simp
  · have hones : (0xFFFFFFFF : Word) = BitVec.allOnes 32 := rfl
    rw [hones]
    refine rotr_eq_self hn fun i hi => ?_
    simp only [BitVec.getLsbD_allOnes, decide_eq_decide]
    omega

/-! ## Addition (R58) -/

theorem add32_eq_add (x y : Word) : add32 x y = x + y := rfl

theorem foldl_add32 (ws : List Word) : ∀ w : Word,
    ws.foldl add32 w = w + BitVec.ofNat 32 (ws.map BitVec.toNat).sum := by
  induction ws with
  | nil => exact fun w => (BitVec.add_zero w).symm
  | cons v vs ih =>
    intro w
    rw [List.foldl_cons, ih, add32_eq_add, List.map_cons, List.sum_cons, BitVec.ofNat_add, BitVec.ofNat_toNat,
      BitVec.setWidth_eq, BitVec.add_assoc]

theorem foldl_add32_zero (ws : List Word) :
    ws.foldl add32 0 = BitVec.ofNat 32 (ws.map BitVec.toNat).sum :=
  (foldl_add32 ws 0).trans (BitVec.zero_add _)

/-- Settles O37: a chain is one sum of natural numbers, which has no order (`foldl_add32_zero`). -/
theorem additionIsModular : Obligations.AdditionIsModular := by
  unfold Obligations.AdditionIsModular
  refine ⟨fun x y => BitVec.toNat_add x y, foldl_add32_zero, fun ws vs h => ?_, by decide⟩
  rw [foldl_add32_zero, foldl_add32_zero, (h.map BitVec.toNat).sum_nat]

/-! ## The schedule sigmas (R59, R60) -/

theorem rotr_xor (x y : Word) {n : Nat} (hn : n ≤ 31) : rotr (x ^^^ y) n = rotr x n ^^^ rotr y n := by
  refine BitVec.eq_of_getLsbD_eq fun i hi => ?_
  have hbit (z : Word) : (rotr z n).getLsbD i = z.getLsbD ((i + n) % 32) := getLsbD_rotr z hn (by omega)
  rw [hbit, BitVec.getLsbD_xor, BitVec.getLsbD_xor, hbit, hbit]

theorem shr_xor (x y : Word) (n : Nat) : shr (x ^^^ y) n = shr x n ^^^ shr y n :=
  BitVec.ushiftRight_xor_distrib x y n

theorem smallSigma0_xor (x y : Word) : smallSigma0 (x ^^^ y) = smallSigma0 x ^^^ smallSigma0 y := by
  simp only [smallSigma0, shr_xor, rotr_xor x y (n := 7) (by decide), rotr_xor x y (n := 18) (by decide)]
  ac_rfl

theorem smallSigma1_xor (x y : Word) : smallSigma1 (x ^^^ y) = smallSigma1 x ^^^ smallSigma1 y := by
  simp only [smallSigma1, shr_xor, rotr_xor x y (n := 17) (by decide), rotr_xor x y (n := 19) (by decide)]
  ac_rfl

/-- Settles O38: each sigma is the XOR of rotations and a shift, which are linear (`rotr_xor`, `shr_xor`). -/
theorem scheduleSigmas : Obligations.ScheduleSigmas := by
  unfold Obligations.ScheduleSigmas
  exact ⟨fun x => ⟨rfl, rfl⟩, fun x y => ⟨smallSigma0_xor x y, smallSigma1_xor x y⟩, by decide⟩

/-! ## The message schedule (R61, R62, R63) -/

/-- The first `16 + n` words of the schedule. -/
def schedulePrefix (blk : List Byte) (n : Nat) : List Word :=
  (List.range' 16 n).foldl extendSchedule (blockWords blk)

theorem schedulePrefix_succ (blk : List Byte) (n : Nat) :
    schedulePrefix blk (n + 1) = schedulePrefix blk n ++ [scheduleWord (schedulePrefix blk n) (16 + n)] := by
  rw [schedulePrefix, List.range'_1_concat, List.foldl_append]
  rfl

@[simp] theorem length_blockWords (blk : List Byte) : (blockWords blk).length = 16 := by simp [blockWords]

@[simp] theorem length_schedulePrefix (blk : List Byte) (n : Nat) : (schedulePrefix blk n).length = 16 + n := by
  induction n with
  | zero => exact length_blockWords blk
  | succ n ih => rw [schedulePrefix_succ, List.length_append, ih, List.length_singleton, Nat.add_assoc]

theorem schedulePrefix_isPrefix_add (blk : List Byte) (n k : Nat) :
    schedulePrefix blk n <+: schedulePrefix blk (n + k) := by
  induction k with
  | zero => exact List.prefix_rfl
  | succ k ih =>
    rw [← Nat.add_assoc, schedulePrefix_succ]
    exact ih.trans (List.prefix_append _ _)

theorem schedulePrefix_isPrefix_expand (blk : List Byte) {n : Nat} (hn : n ≤ 48) :
    schedulePrefix blk n <+: expand blk := by
  have h := schedulePrefix_isPrefix_add blk n (48 - n)
  rwa [Nat.add_sub_of_le hn] at h

/-- A schedule word, once computed, stays. -/
theorem getD_expand (blk : List Byte) {n t : Nat} (hn : n ≤ 48) (ht : t < 16 + n) :
    (expand blk).getD t 0 = (schedulePrefix blk n).getD t 0 := by
  obtain ⟨later, hlater⟩ := schedulePrefix_isPrefix_expand blk hn
  rw [← hlater, List.getD_append _ _ _ _ (by simpa using ht)]

theorem length_expand (blk : List Byte) : (expand blk).length = 64 := length_schedulePrefix blk 48

theorem getD_blockWords (blk : List Byte) {t : Nat} (ht : t < 16) : (blockWords blk).getD t 0 = be32 blk t := by
  rw [List.getD_eq_getElem _ _ (by simpa using ht)]
  simp [blockWords]

theorem getD_expand_blockWord (blk : List Byte) {t : Nat} (ht : t < 16) : (expand blk).getD t 0 = be32 blk t :=
  (getD_expand blk (Nat.zero_le 48) ht).trans (getD_blockWords blk ht)

/-- A schedule word is computed from words at least two places before it. -/
theorem scheduleWord_congr {w w' : List Word} {t : Nat} (hlow : 16 ≤ t)
    (h : ∀ u, u + 2 ≤ t → w.getD u 0 = w'.getD u 0) : scheduleWord w t = scheduleWord w' t := by
  rw [scheduleWord, scheduleWord, h (t - 2) (by omega), h (t - 15) (by omega), h (t - 16) (by omega),
    h (t - 7) (by omega)]

theorem getD_expand_scheduleWord (blk : List Byte) {t : Nat} (hlow : 16 ≤ t) (ht : t < 64) :
    (expand blk).getD t 0 = scheduleWord (expand blk) t := by
  obtain ⟨n, rfl⟩ := Nat.exists_eq_add_of_le hlow
  have hn : n ≤ 48 := by omega
  have hnew : (expand blk).getD (16 + n) 0 = scheduleWord (schedulePrefix blk n) (16 + n) := by
    rw [getD_expand blk (n := n + 1) (by omega) (by omega), schedulePrefix_succ,
      List.getD_append_right _ _ _ _ (by simp), length_schedulePrefix, Nat.sub_self, List.getD_cons_zero]
  rw [hnew]
  exact scheduleWord_congr hlow fun u hu => (getD_expand blk hn (by omega)).symm

theorem getD_expand_of_length_le (blk : List Byte) {t : Nat} (ht : 64 ≤ t) : (expand blk).getD t 0 = 0 :=
  List.getD_eq_default _ _ (by rwa [length_expand])

theorem be32_eq_zero {blk : List Byte} (h : ∀ b ∈ blk, b = 0) (t : Nat) : be32 blk t = 0 := by
  have hbyte (i : Nat) : blk.getD i 0 = 0 := by
    rcases lt_or_ge i blk.length with hi | hi
    · rw [List.getD_eq_getElem _ _ hi]
      exact h _ (List.getElem_mem hi)
    · exact List.getD_eq_default _ _ hi
  rw [be32, hbyte, hbyte, hbyte, hbyte]
  rfl

theorem scheduleWord_eq_zero {w : List Word} {t : Nat} (ht : 0 < t) (h : ∀ u < t, w.getD u 0 = 0) :
    scheduleWord w t = 0 := by
  rw [scheduleWord, h (t - 2) (by omega), h (t - 15) (by omega), h (t - 16) (by omega), h (t - 7) (by omega)]
  decide

theorem getD_expand_zero {blk : List Byte} (h : ∀ b ∈ blk, b = 0) (t : Nat) : (expand blk).getD t 0 = 0 := by
  induction t using Nat.strong_induction_on with
  | _ t ih =>
    rcases lt_or_ge t 16 with hblock | hlow
    · rw [getD_expand_blockWord blk hblock, be32_eq_zero h]
    · rcases lt_or_ge t 64 with ht | hpast
      · rw [getD_expand_scheduleWord blk hlow ht, scheduleWord_eq_zero (by omega) ih]
      · exact getD_expand_of_length_le blk hpast

/-- The words 16 and 17 are computed from words of the block alone. -/
theorem getD_expand_of_blockWords (blk : List Byte) {t : Nat} (hlow : 16 ≤ t) (ht : t < 18) :
    (expand blk).getD t 0 = scheduleWord (blockWords blk) t := by
  rw [getD_expand_scheduleWord blk hlow (by omega)]
  exact scheduleWord_congr hlow fun u hu => getD_expand blk (Nat.zero_le 48) (by omega)

/-- Settles O43: each word is appended from the words before it (`getD_expand_scheduleWord`), so zeros give zeros. -/
theorem scheduleSatisfiesRecurrence : Obligations.ScheduleSatisfiesRecurrence := by
  unfold Obligations.ScheduleSatisfiesRecurrence
  refine ⟨fun blk => ⟨length_expand blk, fun t => getD_expand_blockWord blk, fun t => getD_expand_scheduleWord blk⟩,
    fun blk => getD_expand_zero, ?_, ?_⟩
  · rw [getD_expand_of_blockWords _ (by decide) (by decide)]
    decide
  · rw [getD_expand_of_blockWords _ (by decide) (by decide)]
    decide

/-! ## The 16-word window (R63; 41_compression.md R71) -/

/-- Before round `t` the window holds, in slot `s mod 16`, the word `W[s]` for the last sixteen `s` computed. -/
structure WindowHolds (w window : List Word) (t : Nat) : Prop where
  length : window.length = 16
  slot : ∀ s < max t 16, t ≤ s + 16 → window.getD (s % 16) 0 = w.getD s 0

theorem windowHolds_blockWords (blk : List Byte) : WindowHolds (expand blk) (blockWords blk) 0 where
  length := length_blockWords blk
  slot s hs _ := by
    rw [Nat.mod_eq_of_lt (b := 16) hs]
    exact (getD_expand blk (Nat.zero_le 48) hs).symm

namespace WindowHolds

variable {blk : List Byte} {w window : List Word} {t : Nat}

/-- The window still holds every word the recurrence reads. -/
theorem windowWord_eq (h : WindowHolds (expand blk) window t) (ht : t < 64) :
    windowWord window t = (expand blk).getD t 0 := by
  unfold windowWord
  split
  case isTrue hblock =>
    rw [← h.slot t (by omega) (by omega), Nat.mod_eq_of_lt hblock]
  case isFalse hlow =>
    rw [getD_expand_scheduleWord blk (by omega) ht, scheduleWord, h.slot (t - 2) (by omega) (by omega),
      h.slot (t - 15) (by omega) (by omega), h.slot (t - 16) (by omega) (by omega),
      h.slot (t - 7) (by omega) (by omega)]

/-- `W[t]` takes the slot of `W[t - 16]`, which no later round reads. -/
theorem set (h : WindowHolds w window t) : WindowHolds w (window.set (t % 16) (w.getD t 0)) (t + 1) where
  length := by rw [List.length_set, h.length]
  slot s hs hlast := by
    have hlength := h.length
    by_cases hst : s = t
    · rw [hst, List.getD_eq_getElem _ _ (by rw [List.length_set]; omega), List.getElem_set_self]
    · have hslot : t % 16 ≠ s % 16 := by omega
      rw [← h.slot s (by omega) (by omega), List.getD_eq_getElem?_getD, List.getElem?_set_ne hslot,
        List.getD_eq_getElem?_getD]

theorem windowRound_eq (h : WindowHolds (expand blk) window t) (ht : t < 64) (v : Work) :
    windowRound (v, window) t = (round (expand blk) v t, window.set (t % 16) ((expand blk).getD t 0)) := by
  rw [windowRound, h.windowWord_eq ht, round]

end WindowHolds

theorem foldl_windowRound (blk : List Byte) (v : Work) {n : Nat} (hn : n ≤ 64) :
    ∃ window, WindowHolds (expand blk) window n ∧
      (List.range n).foldl windowRound (v, blockWords blk) = ((List.range n).foldl (round (expand blk)) v, window) := by
  induction n with
  | zero => exact ⟨_, windowHolds_blockWords blk, rfl⟩
  | succ n ih =>
    obtain ⟨window, hwindow, hfold⟩ := ih (by omega)
    refine ⟨_, hwindow.set, ?_⟩
    rw [List.range_succ, List.foldl_append, List.foldl_append, hfold]
    exact hwindow.windowRound_eq (by omega) _

/-- Settles O44: in every round the window gives the round's schedule word (`WindowHolds.windowWord_eq`), so the working
variables are the same after all 64. -/
theorem windowRealisationIsEquivalent : Obligations.WindowRealisationIsEquivalent := by
  unfold Obligations.WindowRealisationIsEquivalent
  intro h blk
  obtain ⟨window, -, hfold⟩ := foldl_windowRound blk (Work.ofWords h) le_rfl
  rw [windowCf, hfold, cf, rounds]

end Sys2Proof.Machine

/-! SUPPORT. The statements of 41_compression.md: the four sigmas as linear bijections, choose and majority bit by bit,
one round, and COMPRESS as a function of the running state and the buffered block. -/

namespace Sys2Proof.Machine

/-! ## The sigmas (R64, R65) -/

theorem bigSigma0_xor (x y : Word) : bigSigma0 (x ^^^ y) = bigSigma0 x ^^^ bigSigma0 y := by
  simp only [bigSigma0, rotr_xor x y (n := 2) (by decide), rotr_xor x y (n := 13) (by decide),
    rotr_xor x y (n := 22) (by decide)]
  ac_rfl

theorem bigSigma1_xor (x y : Word) : bigSigma1 (x ^^^ y) = bigSigma1 x ^^^ bigSigma1 y := by
  simp only [bigSigma1, rotr_xor x y (n := 6) (by decide), rotr_xor x y (n := 11) (by decide),
    rotr_xor x y (n := 25) (by decide)]
  ac_rfl

/-- Every word is the XOR of its one-bit words; the induction clears the bits from the top. -/
theorem word_xor_induction {P : Word → Prop} (zero : P 0) (bit : ∀ i < 32, P (BitVec.twoPow 32 i))
    (xor : ∀ x y, P x → P y → P (x ^^^ y)) (x : Word) : P x := by
  suffices h : ∀ n ≤ 32, ∀ x : Word, (∀ i, n ≤ i → x.getLsbD i = false) → P x from
    h 32 le_rfl x fun i hi => BitVec.getLsbD_of_ge x i hi
  intro n
  induction n with
  | zero =>
    intro _ x hx
    have hzero : x = 0 := BitVec.eq_of_getLsbD_eq fun i _ => by simp [hx i (Nat.zero_le i)]
    exact hzero ▸ zero
  | succ n ih =>
    intro hn x hx
    by_cases htop : x.getLsbD n = true
    · have hflip (i : Nat) : (x ^^^ BitVec.twoPow 32 n).getLsbD i = (x.getLsbD i ^^ decide (n = i)) := by
        rw [BitVec.getLsbD_xor, BitVec.getLsbD_twoPow, decide_eq_true (Nat.lt_of_succ_le hn), Bool.true_and]
      have hclear : P (x ^^^ BitVec.twoPow 32 n) := by
        refine ih (by omega) _ fun i hi => ?_
        rcases Nat.eq_or_lt_of_le hi with rfl | hlt
        · rw [hflip, htop, decide_eq_true rfl, Bool.xor_self]
        · rw [hflip, hx i hlt, decide_eq_false (Nat.ne_of_lt hlt), Bool.xor_self]
      have hback := xor _ _ hclear (bit n hn)
      rwa [BitVec.xor_assoc, BitVec.xor_self, BitVec.xor_zero] at hback
    · refine ih (by omega) x fun i hi => ?_
      rcases Nat.eq_or_lt_of_le hi with rfl | hlt
      · exact Bool.eq_false_of_not_eq_true htop
      · exact hx i hlt

/-- A linear map with a preimage `g` of each one-bit word is a bijection: its range is all the words, which are finitely
many. -/
theorem bijective_of_xor {f : Word → Word} (hxor : ∀ x y, f (x ^^^ y) = f x ^^^ f y) (g : Word → Word)
    (hg : ∀ i < 32, f (g (BitVec.twoPow 32 i)) = BitVec.twoPow 32 i) : Function.Bijective f := by
  have hsurj : Function.Surjective f := by
    refine word_xor_induction ⟨0, ?_⟩ (fun i hi => ⟨_, hg i hi⟩) ?_
    · exact (hxor 0 0).trans BitVec.xor_self
    · rintro _ _ ⟨x, rfl⟩ ⟨y, rfl⟩
      exact ⟨x ^^^ y, hxor x y⟩
  have : Finite Word := Finite.of_equiv _ BitVec.equivFin.symm.toEquiv
  exact Function.Surjective.bijective_of_finite hsurj

/-- The XOR of the `k`-fold iterates of `f`, for `k` in `ks`: the polynomial in `f` over GF(2) with these exponents. The
inverse of an invertible linear `f` is such a polynomial, read off the minimal polynomial of `f`. -/
def xorIterates (f : Word → Word) (ks : List Nat) (x : Word) : Word := ks.foldr (fun k y => f^[k] x ^^^ y) 0

theorem bigSigma0_bijective : Function.Bijective bigSigma0 :=
  bijective_of_xor bigSigma0_xor (xorIterates bigSigma0 [31]) (by decide +kernel)

theorem bigSigma1_bijective : Function.Bijective bigSigma1 :=
  bijective_of_xor bigSigma1_xor (xorIterates bigSigma1 [15]) (by decide +kernel)

theorem smallSigma0_bijective : Function.Bijective smallSigma0 :=
  bijective_of_xor smallSigma0_xor (xorIterates smallSigma0 [1, 3, 9, 11, 13, 19, 31]) (by decide +kernel)

theorem smallSigma1_bijective : Function.Bijective smallSigma1 :=
  bijective_of_xor smallSigma1_xor (xorIterates smallSigma1 [3, 5, 9, 11, 19, 25, 31]) (by decide +kernel)

/-- Settles O39: each sigma is linear and a polynomial in it gives the preimage of each one-bit word
(`bijective_of_xor`). -/
theorem sigmasAreBijections : Obligations.SigmasAreBijections := by
  unfold Obligations.SigmasAreBijections
  exact ⟨fun x => ⟨rfl, rfl⟩, fun x y => ⟨bigSigma0_xor x y, bigSigma1_xor x y⟩, bigSigma0_bijective,
    bigSigma1_bijective, smallSigma0_bijective, smallSigma1_bijective, by decide⟩

/-! ## Choose and majority (R66, R67) -/

theorem getLsbD_ch (x y z : Word) {i : Nat} (hi : i ≤ 31) :
    (ch x y z).getLsbD i = if x.getLsbD i then y.getLsbD i else z.getLsbD i := by
  have hlt : i < 32 := by omega
  rw [ch, BitVec.getLsbD_xor, BitVec.getLsbD_and, BitVec.getLsbD_and, BitVec.getLsbD_not, decide_eq_true hlt]
  cases x.getLsbD i <;> simp

theorem getLsbD_maj (x y z : Word) (i : Nat) : (maj x y z).getLsbD i = true ↔
    2 ≤ (x.getLsbD i).toNat + (y.getLsbD i).toNat + (z.getLsbD i).toNat := by
  rw [maj, BitVec.getLsbD_xor, BitVec.getLsbD_xor, BitVec.getLsbD_and, BitVec.getLsbD_and, BitVec.getLsbD_and]
  generalize x.getLsbD i = a, y.getLsbD i = b, z.getLsbD i = c
  revert a b c
  decide

/-- A word is `ch x y z` when each of its bits is the chosen one. -/
theorem ch_eq {x y z w : Word}
    (h : ∀ i ≤ 31, (if x.getLsbD i then y.getLsbD i else z.getLsbD i) = w.getLsbD i) : ch x y z = w :=
  BitVec.eq_of_getLsbD_eq fun i hi => (getLsbD_ch x y z (by omega)).trans (h i (by omega))

theorem ch_ones (y z : Word) : ch 0xFFFFFFFF y z = y := by
  have hones : (0xFFFFFFFF : Word) = BitVec.allOnes 32 := rfl
  refine ch_eq fun i hi => ?_
  rw [hones, BitVec.getLsbD_allOnes, decide_eq_true (by omega), if_pos rfl]

theorem ch_zero (y z : Word) : ch 0 y z = z := ch_eq fun i _ => by simp

theorem ch_same (x y : Word) : ch x y y = y := ch_eq fun _ _ => ite_self _

theorem ch_eq_or (x y z : Word) : ch x y z = (x &&& y ||| ~~~x &&& z) := by
  refine ch_eq fun i hi => ?_
  have hlt : i < 32 := by omega
  rw [BitVec.getLsbD_or, BitVec.getLsbD_and, BitVec.getLsbD_and, BitVec.getLsbD_not, decide_eq_true hlt]
  cases x.getLsbD i <;> simp

theorem maj_same (x y : Word) : maj x x y = x := by
  rw [maj, BitVec.and_self, BitVec.xor_assoc, BitVec.xor_self, BitVec.xor_zero]

theorem maj_swap_left (x y z : Word) : maj x y z = maj y x z := by
  rw [maj, maj, BitVec.and_comm y x, BitVec.xor_assoc, BitVec.xor_assoc, BitVec.xor_comm (x &&& z)]

theorem maj_swap_right (x y z : Word) : maj x y z = maj x z y := by
  rw [maj, maj, BitVec.and_comm z y, BitVec.xor_comm (x &&& y)]

/-- Settles O40: the bits of Ch and Maj (`getLsbD_ch`, `getLsbD_maj`), and from them the corner cases. -/
theorem chooseAndMajority : Obligations.ChooseAndMajority := by
  unfold Obligations.ChooseAndMajority
  exact ⟨fun x y z i hi => ⟨getLsbD_ch x y z hi, getLsbD_maj x y z i⟩,
    fun x y z => ⟨ch_ones y z, ch_zero y z, ch_same x y, ch_eq_or x y z⟩,
    fun x y z => ⟨maj_same x y, maj_swap_left x y z, maj_swap_right x y z⟩, by decide⟩

/-! ## One round (R68) -/

theorem toNat_add32 (x y : Word) : (add32 x y).toNat = (x.toNat + y.toNat) % 2 ^ 32 := BitVec.toNat_add x y

theorem toNat_roundT1 (k w : Word) (v : Work) : (roundT1 k w v).toNat =
    (k.toNat + w.toNat + (ch v.e v.f v.g).toNat + v.h.toNat + (bigSigma1 v.e).toNat) % 2 ^ 32 := by
  simp only [roundT1, toNat_add32, Nat.mod_add_mod]

theorem toNat_roundT2 (v : Work) :
    (roundT2 v).toNat = ((bigSigma0 v.a).toNat + (maj v.a v.b v.c).toNat) % 2 ^ 32 :=
  toNat_add32 _ _

/-- Settles O41: a chain of `add32` is one sum modulo 2^32 (`toNat_roundT1`, `toNat_roundT2`). -/
theorem roundComputesFromOldValues : Obligations.RoundComputesFromOldValues := by
  unfold Obligations.RoundComputesFromOldValues
  refine ⟨fun w v t => ⟨_, _, rfl, rfl, ?_, ?_, rfl, rfl, rfl, rfl, rfl, rfl⟩, by decide⟩
  · rw [round, mix, toNat_add32, toNat_roundT1, toNat_roundT2, ← Nat.add_mod]
  · rw [round, mix, toNat_add32, toNat_roundT1, Nat.add_mod_mod]

/-! ## COMPRESS (R69, R70) -/

theorem block_eq_map_range (m : Memory) : Memory.block m = (List.range 64).map (Memory.read m) := by
  rw [Memory.block, Memory.readBytes, List.range_eq_range']

theorem toNat_addWork (h : Words8) (v : Work) : (addWork h v).toList.map BitVec.toNat =
    (List.zip h.toList [v.a, v.b, v.c, v.d, v.e, v.f, v.g, v.h]).map
      fun p => (p.1.toNat + p.2.toNat) % 2 ^ 32 := rfl

/-- The new `H` is `CF` of the old `H` and the 64 bytes. -/
theorem compress_h {s : State} (hs : s.filled = 64) :
    (compress s).h = cf s.h ((List.range 64).map (Memory.read s.buf)) := by
  rw [compress_full hs, State.setH_h, block_eq_map_range]

/-- Settles O45: COMPRESS writes `CF` of H and the block into H (`compress_full`), and the block is the 64 bytes read
(`block_eq_map_range`). -/
theorem compressAddsRoundsToRunningState : Obligations.CompressAddsRoundsToRunningState := by
  unfold Obligations.CompressAddsRoundsToRunningState
  refine ⟨fun s hs => ⟨_, _, rfl, ?_, rfl, toNat_addWork _ _⟩, fun s t hs ht hh hbuf => ?_,
    fun s hs => compress_notFull hs⟩
  · rw [compress_full hs, block_eq_map_range, State.setH]
  · have hbytes : (List.range 64).map (Memory.read s.buf) = (List.range 64).map (Memory.read t.buf) :=
      List.map_congr_left fun j hj => hbuf j (List.mem_range.mp hj)
    rw [compress_h hs, compress_h ht, hh, hbytes]

end Sys2Proof.Machine

/-! SUPPORT. The statements of 42_streaming.md: NEW, the whole result of an UPDATE, the two forms of BUFFER, chunking,
and the engine as a machine whose state is the message since the last reset. -/

namespace Sys2Proof.Machine

/-! ## NEW (R100) -/

/-- BUF has no byte beyond its 64. -/
theorem Memory.read_of_wf_of_le {m : Memory} (hm : wf m) {j : Nat} (hj : 64 ≤ j) : read m j = unwritten := by
  induction m with
  | nil => rfl
  | cons c m ih =>
    obtain ⟨-, ⟨hlt, -⟩, hm'⟩ := wf_cons.mp hm
    rw [read, if_neg (by omega)]
    exact ih hm'

/-- In canonical form the initial contents of BUF are the empty list. -/
theorem State.Initial.buf_eq_nil {s : State} (h : s.Initial) (hw : s.BufInv) : s.buf = [] := by
  refine Memory.ext_read hw Memory.wf_nil fun j => ?_
  rcases Nat.lt_or_ge j 64 with hlt | hge
  · exact h.buf j hlt
  · exact Memory.read_of_wf_of_le hw hge

theorem State.Initial.loadInitial_eq {s : State} (h : s.Initial) (hw : s.BufInv) : s.loadInitial = s := by
  rw [State.loadInitial, ← h.h, ← h.buf_eq_nil hw, ← h.filled, ← h.totalLen]

/-- Settles O3: NEW is the initial-state load, which leaves an initial engine as it is (`State.Initial.loadInitial_eq`).
-/
theorem newLoadsInitialStateOnly : Obligations.NewLoadsInitialStateOnly := by
  unfold Obligations.NewLoadsInitialStateOnly
  refine ⟨fun s hs => ⟨exec_new hs, Memory.read_nil⟩, fun s hs hw hi => ?_, fun s r h => exec_faulted h .new⟩
  rw [exec_new hs, hi.loadInitial_eq hw]

/-! ## UPDATE (R102, R104) -/

theorem length_blocksOf (bytes : List Byte) : (blocksOf bytes).length = bytes.length / 64 := by simp [blocksOf]

/-- BUFFER does not look at TOTAL_LEN, so its result is the same before and after the count. -/
theorem BufferResult.of_addLength {data : List Byte} {s t : State} {n : Nat}
    (h : BufferResult data (s.addLength n) t) : BufferResult data s t := ⟨h.h, h.pending, h.filled, h.buf⟩

/-- An UPDATE that takes no overflow fault advances TOTAL_LEN and does to the rest what BUFFER does. -/
theorem exec_update_result {data : List Byte} {s : State} (hs : s.status = .operational) (hf : s.filled.toNat ≤ 63)
    (hw : s.BufInv) (h : Config.lenOverflow = .fault → s.totalLen.toNat + data.length ≤ 2 ^ 64 - 1) :
    ∃ t, exec (.update data) s = .next t ∧ BufferFrame (s.addLength data.length) t ∧ BufferResult data s t :=
  ⟨_, exec_update_absorbs hs h, buffer_frame data (s := s.addLength data.length) hs,
    (buffer_result data (s := s.addLength data.length) hs hf hw).of_addLength⟩

theorem BufferFrame.toNat_totalLen {s t : State} {n : Nat} (h : BufferFrame (s.addLength n) t) :
    t.totalLen.toNat = (s.totalLen.toNat + n) % 2 ^ 64 := by
  rw [h.totalLen, State.addLength_totalLen, BitVec.toNat_ofNat]

theorem BufferResult.filled_le {data : List Byte} {s t : State} (h : BufferResult data s t) : t.filled.toNat ≤ 63 := by
  have := h.filled
  omega

/-- Settles O4: the registers UPDATE writes and those it keeps (`exec_update_result`). -/
theorem updateAbsorbsItsBytes : Obligations.UpdateAbsorbsItsBytes := by
  unfold Obligations.UpdateAbsorbsItsBytes
  intro data s hs hf hw hlen
  obtain ⟨t, hexec, hframe, hresult⟩ := exec_update_result hs hf hw hlen
  have hblocks : (blocksOf (s.pending ++ data)).length = (s.filled.toNat + data.length) / 64 := by
    rw [length_blocksOf, List.length_append, State.length_pending]
  exact ⟨t, hexec, hframe.toNat_totalLen, hresult.filled, hresult.h, hblocks, hresult.pending, hframe.status,
    hframe.refusal, hframe.stream, hframe.offset, hframe.responses⟩

/-! ## The two forms of BUFFER (R101) -/

/-- The 64th byte of the block: COMPRESS is entered with FILLED = 64, as in a turn of the block form. -/
theorem bufferByte_of_completes (v : Byte) {s : State} (hs : s.status = .operational) (h : s.filled.toNat = 63) :
    bufferByte s v = afterBlock [v] s := by
  have hfull : ((s.store [v]).setFilled (s.filled.toNat + 1)).filled = 64 := by
    rw [State.setFilled_filled, h]
    rfl
  simp only [bufferByte, if_pos hfull]
  rw [compress_full hfull, State.andThen_operational (by simpa using hs), afterBlock, h]
  rfl

theorem bufferByte_of_room (v : Byte) {s : State} (h : s.filled.toNat < 63) :
    bufferByte s v = (s.store [v]).setFilled (s.filled.toNat + 1) := by
  have hnotFull : ((s.store [v]).setFilled (s.filled.toNat + 1)).filled ≠ 64 := by
    intro hfull
    have hnat : ((s.store [v]).setFilled (s.filled.toNat + 1)).filled.toNat = 64 := congrArg BitVec.toNat hfull
    rw [State.toNat_setFilled (by omega)] at hnat
    omega
  simp only [bufferByte, if_neg hnotFull]

/-- Of one byte the two forms differ in nothing. -/
theorem buffer_singleton (v : Byte) {s : State} (hs : s.status = .operational) (hf : s.filled.toNat ≤ 63) :
    buffer [v] s = bufferByte s v := by
  rcases Nat.eq_or_lt_of_le hf with h | h
  · have hblock : s.completesBlock [v].length := by
      rw [State.completesBlock, h, List.length_singleton]
    rw [bufferByte_of_completes v hs h, buffer_block hs hf hblock, h]
    exact buffer_nil (s := afterBlock [v] s) (Nat.zero_le _)
  · have htail : ¬ s.completesBlock [v].length := by
      rw [State.completesBlock, List.length_singleton]; omega
    rw [bufferByte_of_room v h, buffer_tail htail, List.length_singleton]

theorem buffer_eq_bufferBytes (data : List Byte) : ∀ {s : State}, s.status = .operational → s.filled.toNat ≤ 63 →
    s.BufInv → buffer data s = bufferBytes data s := by
  induction data with
  | nil => exact fun _ hf _ => buffer_nil hf
  | cons v data ih =>
    intro s hs hf hw
    have hresult := buffer_result [v] hs hf hw
    have hbyte := buffer_singleton v hs hf
    calc buffer (v :: data) s = buffer data (buffer [v] s) := (buffer_append [v] data hs hf).symm
      _ = bufferBytes data (buffer [v] s) := ih (buffer_frame [v] hs).status hresult.filled_le hresult.buf
      _ = bufferBytes (v :: data) s := by rw [hbyte]; rfl

/-- Settles O8: BUFFER of a concatenation goes byte by byte (`buffer_append`), and of one byte the forms agree
(`buffer_singleton`). -/
theorem blockFormEqualsByteForm : Obligations.BlockFormEqualsByteForm := by
  unfold Obligations.BlockFormEqualsByteForm
  exact fun data s => buffer_eq_bufferBytes data

/-! ## Chunking (R103) -/

theorem runCommands_append {is : List Instr} (js : List Instr) : ∀ {s t : State}, runCommands is s = .next t →
    runCommands (is ++ js) s = runCommands js t := by
  induction is with
  | nil =>
    intro s t h
    rw [← Host.Outcome.next.inj h, List.nil_append]
  | cons i is ih =>
    intro s t h
    obtain ⟨u, hexec, hrest⟩ := runCommands_cons_eq_next.mp h
    simp only [List.cons_append, runCommands, hexec, ih hrest]

theorem runCommands_singleton (i : Instr) (s : State) : runCommands [i] s = exec i s := by
  simp only [runCommands]
  cases exec i s <;> rfl

/-- UPDATEs that take no overflow fault are one UPDATE of the concatenation. -/
theorem runCommands_updates (chunks : List (List Byte)) : ∀ {s : State}, s.status = .operational →
    s.filled.toNat ≤ 63 → s.BufInv →
    (Config.lenOverflow = .fault → s.totalLen.toNat + chunks.flatten.length ≤ 2 ^ 64 - 1) →
    runCommands (chunks.map .update) s = exec (.update chunks.flatten) s := by
  induction chunks with
  | nil => exact fun hs hf _ _ => (exec_update_nil hs hf).symm
  | cons x chunks ih =>
    intro s hs hf hw h
    rw [List.flatten_cons, List.length_append] at h
    obtain ⟨u, hexec, hframe, hresult⟩ := exec_update_result (data := x) hs hf hw fun hp => by have := h hp; omega
    obtain ⟨t, hpair, hwhole⟩ := runCommands_update_update (x := x) (y := chunks.flatten) hs hf
      fun hp => by have := h hp; omega
    have htotal : u.totalLen.toNat ≤ s.totalLen.toNat + x.length := hframe.toNat_totalLen ▸ Nat.mod_le _ _
    calc runCommands ((x :: chunks).map .update) s = runCommands (chunks.map .update) u := by
          simp only [List.map_cons, runCommands, hexec]
      _ = exec (.update chunks.flatten) u :=
          ih hframe.status hresult.filled_le hresult.buf fun hp => by have := h hp; omega
      _ = runCommands [.update x, .update chunks.flatten] s := (runCommands_pair hexec).symm
      _ = exec (.update (x :: chunks).flatten) s := by rw [hpair, List.flatten_cons, hwhole]

/-- Settles O9: any UPDATEs leave the state one UPDATE of the whole leaves (`runCommands_updates`), and there DIGEST
answers. -/
theorem chunkingDoesNotMatter : Obligations.ChunkingDoesNotMatter := by
  unfold Obligations.ChunkingDoesNotMatter
  refine ⟨fun x y s hs hf _ => runCommands_update_update hs hf, fun chunks s hs hf hw hlen => ?_⟩
  obtain ⟨u, hwhole, hframe, -⟩ := exec_update_result hs hf hw hlen
  have hchunks := (runCommands_updates chunks hs hf hw hlen).trans hwhole
  have hdigest := exec_digest hframe.status
  refine ⟨_, ?_, (runCommands_pair hwhole).trans hdigest⟩
  rw [runCommands_append _ hchunks, runCommands_singleton, hdigest]

/-! ## Blocks of a concatenation (R104) -/

/-- A byte sequence is shorter than a block, or a block in front of a byte sequence. -/
theorem blocks_induction {motive : List Byte → Prop} (short : ∀ bytes, bytes.length < 64 → motive bytes)
    (block : ∀ b bytes, b.length = 64 → motive bytes → motive (b ++ bytes)) (bytes : List Byte) : motive bytes := by
  induction hn : bytes.length using Nat.strong_induction_on generalizing bytes with
  | _ n ih =>
    rcases Nat.lt_or_ge bytes.length 64 with hlt | hge
    · exact short bytes hlt
    · rw [← List.take_append_drop 64 bytes]
      exact block _ _ (List.length_take_of_le hge) (ih _ (by omega) _ List.length_drop)

theorem blocksOf_append (x y : List Byte) : blocksOf (x ++ y) = blocksOf x ++ blocksOf (leftover x ++ y) := by
  induction x using blocks_induction with
  | short x h => rw [blocksOf_short h, leftover_short h, List.nil_append]
  | block b x hb ih =>
    rw [List.append_assoc, blocksOf_block_append hb, ih, blocksOf_block_append hb, leftover_block_append hb,
      List.cons_append]

theorem leftover_append (x y : List Byte) : leftover (x ++ y) = leftover (leftover x ++ y) := by
  induction x using blocks_induction with
  | short x h => rw [leftover_short h]
  | block b x hb ih => rw [List.append_assoc, leftover_block_append hb, ih, leftover_block_append hb]

theorem hashBlocks_append (h : Words8) (bs cs : List (List Byte)) :
    hashBlocks h (bs ++ cs) = hashBlocks (hashBlocks h bs) cs := List.foldl_append

/-- Byte `j` of block `k` is byte `64k + j` of the sequence. -/
theorem getD_blocksOf {bytes : List Byte} {k j : Nat} (hk : k < bytes.length / 64) (hj : j < 64) :
    ((blocksOf bytes).getD k []).getD j 0 = bytes.getD (64 * k + j) 0 := by
  simp [blocksOf, List.getD_eq_getElem?_getD, hk, hj]

/-! ## The message machine (R104, R111) -/

theorem loadInitial_absorbed (s : State) : s.loadInitial.Absorbed [] := ⟨rfl, rfl, rfl, rfl, Memory.wf_nil⟩

theorem respond_absorbed {message : List Byte} {s : State} (h : s.Absorbed message) (v : Response) :
    (s.respond v).Absorbed message := ⟨h.h, h.pending, h.filled, h.totalLen, h.buf⟩

namespace State.Absorbed

variable {message data : List Byte} {s t : State}

theorem filled_le (h : s.Absorbed message) : s.filled.toNat ≤ 63 := by
  have := h.filled
  omega

/-- From an engine that stands at a message, BUFFER continues the chain of H over the blocks of the message. -/
theorem h_of_bufferResult (h : s.Absorbed message) (hr : BufferResult data s t) :
    t.h = hashBlocks IV (blocksOf (message ++ data)) := by
  rw [hr.h, h.h, h.pending, blocksOf_append message, hashBlocks_append]

theorem of_bufferResult (h : s.Absorbed message) (hf : BufferFrame (s.addLength data.length) t)
    (hr : BufferResult data s t) : t.Absorbed (message ++ data) where
  h := h.h_of_bufferResult hr
  pending := by rw [hr.pending, h.pending, ← leftover_append]
  filled := by rw [hr.filled, h.filled, List.length_append, Nat.mod_add_mod]
  totalLen := by rw [hf.toNat_totalLen, h.totalLen, List.length_append, Nat.mod_add_mod]
  buf := hr.buf

/-- Of the message length the padding depends on what FILLED and TOTAL_LEN hold, so DIGEST pads the message (R108). -/
theorem padding_eq (h : s.Absorbed message) :
    [padMarker] ++ zeroFill (zeroCount s.filled.toNat) ++ lengthField s.totalLen = padding message.length := by
  have htotal : s.totalLen = BitVec.ofNat 64 message.length := BitVec.eq_of_toNat_eq h.totalLen
  have hzeros : zeroCount s.filled.toNat = zeroCount message.length := by
    rw [h.filled, zeroCount, zeroCount, Nat.mod_mod]
  rw [padding, htotal, hzeros]

theorem padMessage_h (h : s.Absorbed message) (hs : s.status = .operational) :
    (padMessage s).h = messageDigest message := by
  rw [padMessage_eq_buffer hs h.filled_le h.buf, h.padding_eq]
  exact h.h_of_bufferResult (buffer_result _ hs h.filled_le h.buf)

end State.Absorbed

/-- Settles O15: NEW and DIGEST load the engine that has absorbed nothing, UPDATE appends to the message
(`State.Absorbed.of_bufferResult`), and the padded message is what DIGEST compresses (`State.Absorbed.padMessage_h`). -/
theorem engineSimulatesMessageMachine : Obligations.EngineSimulatesMessageMachine := by
  unfold Obligations.EngineSimulatesMessageMachine
  refine ⟨fun message => ⟨length_blocksOf message, fun k hk j hj => getD_blocksOf hk hj⟩,
    fun s hs => ⟨_, exec_new hs, loadInitial_absorbed s⟩, fun message data s hs h hlen => ?_,
    fun message s hs h => ⟨_, exec_digest hs, respond_absorbed (loadInitial_absorbed s) _, ?_⟩⟩
  · obtain ⟨t, hexec, hframe, hresult⟩ := exec_update_result hs h.filled_le h.buf hlen
    exact ⟨t, hexec, h.of_bufferResult hframe hresult, hframe.responses⟩
  · rw [h.padMessage_h hs, State.respond_responses, State.loadInitial_responses]

end Sys2Proof.Machine

/-! SUPPORT. The statements of 43_finalize.md: the length field and the padded message, the blocks DIGEST compresses,
and the digest of a message however it was split into payloads. -/

namespace Sys2Proof.Machine

/-! ## The length field (R107; 20_memory.md R34) -/

theorem toNat_bitLength (totalLen : Word64) : (bitLength totalLen).toNat = 8 * totalLen.toNat % 2 ^ 64 :=
  BitVec.toNat_ofNat _ _

theorem getD_be64Bytes (v : Word64) {k : Nat} (hk : k < 8) : (be64Bytes v).getD k 0 = be64Byte v k := by
  simp [be64Bytes, List.getD_eq_getElem?_getD, hk]

@[simp] theorem length_lengthField (totalLen : Word64) : (lengthField totalLen).length = 8 := length_be64Bytes _

theorem beNat_lengthField (totalLen : Word64) : beNat (lengthField totalLen) = 8 * totalLen.toNat % 2 ^ 64 := by
  rw [lengthField, beNat_be64Bytes, toNat_bitLength]

/-- Settles O13: the field is the big-endian form of the bit length (`beNat_lengthField`), which fits below 2^61 bytes.
-/
theorem lengthFieldIsBigEndianBitLength : Obligations.LengthFieldIsBigEndianBitLength := by
  unfold Obligations.LengthFieldIsBigEndianBitLength
  refine fun totalLen => ⟨length_lengthField totalLen, fun k hk => ?_, beNat_lengthField totalLen, fun h => ?_⟩
  · rw [lengthField, getD_be64Bytes _ hk, be64Byte_toNat, toNat_bitLength]
    rfl
  · rw [beNat_lengthField, Nat.mod_eq_of_lt (by omega)]

/-! ## The padded message (R108) -/

/-- Counting a message modulo 2^64 loses nothing of its bit length modulo 2^64. -/
theorem lengthField_ofNat (l : Nat) : lengthField (BitVec.ofNat 64 l) = be64Bytes (BitVec.ofNat 64 (8 * l)) := by
  refine congrArg be64Bytes (BitVec.eq_of_toNat_eq ?_)
  rw [toNat_bitLength, BitVec.toNat_ofNat, BitVec.toNat_ofNat, Nat.mul_mod_mod]

theorem zeroCount_le (l : Nat) : zeroCount l ≤ 63 := by
  unfold zeroCount
  omega

theorem add_zeroCount_mod (l : Nat) : (l + zeroCount l) % 64 = 55 := by
  unfold zeroCount
  omega

theorem length_paddedMessage (message : List Byte) :
    (paddedMessage message).length = message.length + 1 + zeroCount message.length + 8 := by
  simp only [paddedMessage, padding, List.length_append, List.length_singleton, length_zeroFill, length_lengthField]
  omega

/-- Settles O12: the zero bytes of R108 bring the message, before its marker and its length, to 55 modulo 64
(`add_zeroCount_mod`). -/
theorem paddedMessageShape : Obligations.PaddedMessageShape := by
  unfold Obligations.PaddedMessageShape
  intro message
  have hmod := add_zeroCount_mod message.length
  have hlength := length_paddedMessage message
  refine ⟨zeroCount message.length, zeroCount_le _, ?_, hmod, hlength, by omega⟩
  rw [paddedMessage, padding, lengthField_ofNat, ← List.append_assoc, ← List.append_assoc]
  rfl

/-! ## The blocks DIGEST compresses (R105, R109, R110) -/

theorem length_of_mem_blocksOf {bytes b : List Byte} (h : b ∈ blocksOf bytes) : b.length = 64 := by
  obtain ⟨k, hk, rfl⟩ := List.mem_map.mp h
  have hwhole : k < bytes.length / 64 := List.mem_range.mp hk
  rw [List.length_take, List.length_drop]
  omega

theorem blocksOf_block {block : List Byte} (h : block.length = 64) : blocksOf block = [block] := by
  have hblocks := blocksOf_block_append (bytes := []) h
  rwa [List.append_nil] at hblocks

/-- The blocks of the pending bytes and the padding that DIGEST buffers after them. -/
def State.finalBlocks (s : State) : List (List Byte) :=
  blocksOf (s.pending ++ ([padMarker] ++ zeroFill (zeroCount s.filled.toNat) ++ lengthField s.totalLen))

theorem exec_digest_finalBlocks {s : State} (hs : s.status = .operational) (hf : s.filled.toNat ≤ 63) (hw : s.BufInv) :
    exec .digest s = .next (s.loadInitial.respond (responseOf (hashBlocks s.h s.finalBlocks))) := by
  rw [exec_digest hs, padMessage_eq_buffer hs hf hw, (buffer_result _ hs hf hw).h, State.finalBlocks]

theorem zeroCount_of_room {filled : Nat} (h : filled ≤ 55) : zeroCount filled = 55 - filled := by
  unfold zeroCount
  omega

theorem zeroCount_of_noRoom {filled : Nat} (h : 55 < filled) (hf : filled ≤ 63) :
    zeroCount filled = (63 - filled) + 56 := by
  unfold zeroCount
  omega

/-- Up to 55 pending bytes leave room for the marker and the length in their own block. -/
theorem finalBlocks_of_room {s : State} (h : s.filled.toNat ≤ 55) : s.finalBlocks =
    [s.pending ++ [padMarker] ++ zeroFill (55 - s.filled.toNat) ++ lengthField s.totalLen] := by
  rw [State.finalBlocks, zeroCount_of_room h, ← List.append_assoc, ← List.append_assoc]
  refine blocksOf_block ?_
  simp only [List.length_append, State.length_pending, List.length_singleton, length_zeroFill, length_lengthField]
  omega

/-- From 56 pending bytes on, the zero fill completes their block and begins the block of the length. -/
theorem finalBlocks_of_noRoom {s : State} (h : 55 < s.filled.toNat) (hf : s.filled.toNat ≤ 63) : s.finalBlocks =
    [s.pending ++ [padMarker] ++ zeroFill (63 - s.filled.toNat), zeroFill 56 ++ lengthField s.totalLen] := by
  have hfirst : (s.pending ++ [padMarker] ++ zeroFill (63 - s.filled.toNat)).length = 64 := by
    simp only [List.length_append, State.length_pending, List.length_singleton, length_zeroFill]
    omega
  have hsplit : s.pending ++ ([padMarker] ++ zeroFill (zeroCount s.filled.toNat) ++ lengthField s.totalLen) =
      (s.pending ++ [padMarker] ++ zeroFill (63 - s.filled.toNat)) ++ (zeroFill 56 ++ lengthField s.totalLen) := by
    simp only [zeroCount_of_noRoom h hf, ← zeroFill_append, List.append_assoc]
  rw [State.finalBlocks, hsplit, blocksOf_block_append hfirst, blocksOf_block (by simp)]

/-- Settles O11: the blocks are those of the pending bytes and the padding, one where the length still fits
(`finalBlocks_of_room`) and two where it does not (`finalBlocks_of_noRoom`). -/
theorem digestCompressesFinalBlocks : Obligations.DigestCompressesFinalBlocks := by
  unfold Obligations.DigestCompressesFinalBlocks
  intro s hs ⟨hf, hmod⟩ hw
  rw [← hmod]
  refine ⟨s.finalBlocks, ?_, fun b => length_of_mem_blocksOf, ?_, exec_digest_finalBlocks hs hf hw⟩
  · split
    · next hroom => exact finalBlocks_of_room hroom
    · next hroom => exact finalBlocks_of_noRoom (Nat.not_le.mp hroom) hf
  · split
    · next hroom => rw [finalBlocks_of_room hroom, List.length_singleton]
    · next hroom => rw [finalBlocks_of_noRoom (Nat.not_le.mp hroom) hf, List.length_cons, List.length_singleton]

/-! ## The digest of a message (R111) -/

theorem exec_digest_of_absorbed {message : List Byte} {s : State} (hs : s.status = .operational)
    (h : s.Absorbed message) :
    exec .digest s = .next (s.loadInitial.respond (responseOf (messageDigest message))) := by
  rw [exec_digest hs, h.padMessage_h hs]

/-- The initial-state load forgets what UPDATE wrote. -/
theorem BufferFrame.loadInitial_eq {s t : State} {n : Nat} (hs : s.status = .operational)
    (h : BufferFrame (s.addLength n) t) : t.loadInitial = s.loadInitial := by
  simp only [State.loadInitial, h.status, hs, h.refusal, h.stream, h.offset, h.responses, State.addLength_refusal,
    State.addLength_stream, State.addLength_offset, State.addLength_responses]

/-- NEW forgets what was pending, so nothing but the concatenation of the payloads reaches the response. -/
theorem runCommands_new_updates_digest {chunks : List (List Byte)} {s : State} (hs : s.status = .operational)
    (h : Config.lenOverflow = .fault → chunks.flatten.length ≤ 2 ^ 64 - 1) :
    runCommands ([.new] ++ chunks.map .update ++ [.digest]) s =
      .next (s.loadInitial.respond (responseOf (messageDigest chunks.flatten))) := by
  have hfits : Config.lenOverflow = .fault → s.loadInitial.totalLen.toNat + chunks.flatten.length ≤ 2 ^ 64 - 1 := by
    simpa using h
  have hstatus : s.loadInitial.status = .operational := hs
  have hloaded := loadInitial_absorbed s
  obtain ⟨t, hupdate, hframe, hresult⟩ := exec_update_result hstatus hloaded.filled_le hloaded.buf hfits
  have hchunks : runCommands (chunks.map .update) s.loadInitial = .next t :=
    (runCommands_updates chunks hstatus hloaded.filled_le hloaded.buf hfits).trans hupdate
  have habsorbed : t.Absorbed chunks.flatten := hloaded.of_bufferResult hframe hresult
  calc runCommands ([.new] ++ chunks.map .update ++ [.digest]) s
      = runCommands (chunks.map .update ++ [.digest]) s.loadInitial := by
        rw [List.append_assoc]
        exact runCommands_append _ (by rw [runCommands_singleton, exec_new hs])
    _ = exec .digest t := by rw [runCommands_append _ hchunks, runCommands_singleton]
    _ = .next (t.loadInitial.respond (responseOf (messageDigest chunks.flatten))) :=
        exec_digest_of_absorbed hframe.status habsorbed
    _ = .next (s.loadInitial.respond (responseOf (messageDigest chunks.flatten))) := by
        rw [hframe.loadInitial_eq hstatus]
        rfl

/-- Settles O14: the UPDATEs are one UPDATE of the concatenation, and DIGEST hashes the message the engine has absorbed
(`runCommands_new_updates_digest`). -/
theorem engineComputesMessageDigest : Obligations.EngineComputesMessageDigest := by
  unfold Obligations.EngineComputesMessageDigest
  exact fun chunks s hs h => runCommands_new_updates_digest hs h

/-! ## Published digests (R112; 95_test_vectors.md sections 1.1 and 1.2) -/

theorem responseOf_messageDigest_nil : responseOf (messageDigest []) =
    asciiBytes "e3b0c44298fc1c149afbf4c8996fb92427ae41e4649b934ca495991b7852b855".toList := by decide +kernel

theorem responseOf_messageDigest_abc : responseOf (messageDigest (asciiBytes "abc".toList)) =
    asciiBytes "ba7816bf8f01cfea414140de5dae2223b00361a396177a9cb410ff61f20015ad".toList := by decide +kernel

/-- Settles O16: the first DIGEST leaves the engine that has absorbed nothing, whatever was pending. -/
theorem secondDigestIsOfEmptyMessage : Obligations.SecondDigestIsOfEmptyMessage := by
  unfold Obligations.SecondDigestIsOfEmptyMessage
  intro s hs
  have hfirst := exec_digest hs
  have hempty : (s.loadInitial.respond (responseOf (padMessage s).h)).Absorbed [] :=
    respond_absorbed (loadInitial_absorbed s) _
  have hsecond := exec_digest_of_absorbed (s := s.loadInitial.respond (responseOf (padMessage s).h)) hs hempty
  refine ⟨_, responseOf (padMessage s).h, (runCommands_pair hfirst).trans hsecond,
    respond_initial (loadInitial_initial _) _, ?_⟩
  rw [responseOf_messageDigest_nil]
  simp

/-- Settles O18: HASH is NEW, one UPDATE and DIGEST, so it responds the message digest. -/
theorem hashOfAbc : Obligations.HashOfAbc := by
  unfold Obligations.HashOfAbc
  intro s hs
  have hexpand : (SourceCommand.hash [.text "abc".toList]).expand =
      [.new] ++ [asciiBytes "abc".toList].map .update ++ [.digest] := by
    rw [SourceCommand.expand, payloadBytes_text]
    rfl
  have hhash := runCommands_new_updates_digest (chunks := [asciiBytes "abc".toList]) hs fun _ => by decide
  rw [List.flatten_singleton, responseOf_messageDigest_abc] at hhash
  rw [hexpand]
  exact ⟨_, hhash, rfl⟩

end Sys2Proof.Machine

/-! SUPPORT. The statements of 44_formatter.md: the characters of a formatted digest, the words read back from them, and
the digest as bytes. -/

namespace Sys2Proof.Machine

/-! ## Digit by digit (R120) -/

/-- Where every element gives a piece of `n` entries, entry `n * i + k` is entry `k` of the piece of element `i`. -/
theorem getElem?_flatMap_of_length {α β : Type} {f : α → List β} {n : Nat} (hf : ∀ a, (f a).length = n) {k : Nat}
    (hk : k < n) (l : List α) (i : Nat) : (l.flatMap f)[n * i + k]? = l[i]?.bind fun a => (f a)[k]? := by
  induction l generalizing i with
  | nil => simp
  | cons a l ih =>
    rw [List.flatMap_cons]
    cases i with
    | zero => rw [List.getElem?_append_left (by rw [hf]; omega), Nat.mul_zero, Nat.zero_add]; rfl
    | succ i =>
      have hindex : n * (i + 1) + k - n = n * i + k := by rw [Nat.mul_succ]; omega
      rw [List.getElem?_append_right (by rw [hf, Nat.mul_succ]; omega), hf, hindex, ih, List.getElem?_cons_succ]

theorem getElem?_toList (d : Words8) (i : Fin 8) : d.toList[i.val]? = some (d.get i) := by
  fin_cases i <;> rfl

theorem length_format (d : Words8) : (format d).length = 64 := by
  simpa [responseOf, asciiBytes] using length_responseOf d

theorem getElem?_formatWord (w : Word) {k : Nat} (hk : k < 8) :
    (formatWord w)[k]? = some (hexDigit (w.extractLsb' (28 - 4 * k) 4)) := by
  simp [formatWord, hk]

theorem getElem?_format (d : Words8) (i : Fin 8) {k : Nat} (hk : k < 8) :
    (format d)[8 * i.val + k]? = some (hexDigit ((d.get i).extractLsb' (28 - 4 * k) 4)) := by
  rw [format, getElem?_flatMap_of_length length_formatWord hk, getElem?_toList, Option.bind_some,
    getElem?_formatWord _ hk]

theorem getElem?_hexAlphabet : ∀ v : BitVec 4, hexAlphabet[v.toNat]? = some (hexDigit v) := by decide

theorem mem_hexAlphabet_of_mem_format {d : Words8} {c : Char} (h : c ∈ format d) : c ∈ hexAlphabet := by
  simp only [format, formatWord, List.mem_flatMap, List.mem_map] at h
  obtain ⟨_, -, _, -, rfl⟩ := h
  exact List.mem_of_getElem? (getElem?_hexAlphabet _)

theorem toNat_extractLsb' (w : Word) (start len : Nat) :
    (w.extractLsb' start len).toNat = w.toNat / 2 ^ start % 2 ^ len := by
  rw [BitVec.extractLsb'_toNat, Nat.shiftRight_eq_div_pow]

/-- Settles O47: character `8i + k` is the digit of field `k` of word `i`, which the alphabet gives by its value. -/
theorem formatGivesSixtyFourDigits : Obligations.FormatGivesSixtyFourDigits := by
  unfold Obligations.FormatGivesSixtyFourDigits
  refine ⟨fun d => ⟨length_format d, fun c => mem_hexAlphabet_of_mem_format, fun i k hk => ?_⟩, by decide, by decide⟩
  rw [getElem?_format d i hk, ← getElem?_hexAlphabet, toNat_extractLsb']
  rfl

/-! ## The words read back (R121) -/

theorem hexVal_hexDigit : ∀ v : BitVec 4, hexVal (hexDigit v) = v.toNat := by decide

theorem hexVal_getD_format (d : Words8) (i : Fin 8) {k : Nat} (hk : k < 8) :
    hexVal ((format d).getD (8 * i.val + k) '0') = (d.get i).toNat / 2 ^ (28 - 4 * k) % 16 := by
  rw [List.getD_eq_getElem?_getD, getElem?_format d i hk, Option.getD_some, hexVal_hexDigit]
  exact toNat_extractLsb' ..

/-- The first `n` digits of a word, each at its place, are the word without its lower `32 - 4n` bits. -/
theorem sum_leadingDigits (w : Word) {n : Nat} (hn : n ≤ 8) :
    ((List.range n).map fun k => w.toNat / 2 ^ (28 - 4 * k) % 16 * 16 ^ (7 - k)).sum =
      w.toNat / 2 ^ (32 - 4 * n) * 2 ^ (32 - 4 * n) := by
  induction n with
  | zero => simp [Nat.div_eq_of_lt w.isLt]
  | succ n ih =>
    have hplace : 16 ^ (7 - n) = 2 ^ (28 - 4 * n) := by
      rw [show 28 - 4 * n = 4 * (7 - n) by omega, Nat.pow_mul]
    have hwidth : 2 ^ (32 - 4 * n) = 2 ^ (28 - 4 * n) * 16 := by
      rw [show 32 - 4 * n = 28 - 4 * n + 4 by omega, Nat.pow_add]
    rw [List.range_succ, List.map_append, List.sum_append, ih (by omega), List.map_singleton, List.sum_singleton,
      hplace, hwidth, ← Nat.div_div_eq_div_mul, show 32 - 4 * (n + 1) = 28 - 4 * n by omega,
      Nat.mul_comm _ 16, ← Nat.mul_assoc, ← Nat.add_mul, Nat.div_add_mod']

theorem sum_digits (w : Word) :
    ((List.range 8).map fun k => w.toNat / 2 ^ (28 - 4 * k) % 16 * 16 ^ (7 - k)).sum = w.toNat :=
  (sum_leadingDigits w (Nat.le_refl 8)).trans (by simp)

theorem parseWord_format (d : Words8) (i : Fin 8) : parseWord (format d) i = d.get i := by
  have hdigits : ((List.range 8).map fun k => hexVal ((format d).getD (8 * i.val + k) '0') * 16 ^ (7 - k)) =
      (List.range 8).map fun k => (d.get i).toNat / 2 ^ (28 - 4 * k) % 16 * 16 ^ (7 - k) :=
    List.map_congr_left fun k hk => by rw [hexVal_getD_format d i (List.mem_range.mp hk)]
  rw [parseWord, hdigits, sum_digits, BitVec.ofNat_toNat, BitVec.setWidth_eq]

theorem parseDigest_format (d : Words8) : parseDigest (format d) = d := by
  have hword := parseWord_format d
  exact (Words8.mk.injEq ..).mpr ⟨hword 0, hword 1, hword 2, hword 3, hword 4, hword 5, hword 6, hword 7⟩

theorem format_injective : Function.Injective format := Function.LeftInverse.injective parseDigest_format

/-- The characters are ASCII, so the response bytes are the text. -/
theorem map_ofNat_responseOf (d : Words8) : ((responseOf d).map fun b => Char.ofNat b.toNat) = format d := by
  rw [responseOf, asciiBytes, List.map_map]
  refine (List.map_congr_left fun c hc => ?_).trans (List.map_id _)
  rw [Function.comp_apply, BitVec.toNat_ofNat, Nat.mod_eq_of_lt (toNat_lt_of_mem_format hc), Char.ofNat_toNat, id]

theorem responseOf_injective : Function.Injective responseOf := fun d e h =>
  format_injective (by rw [← map_ofNat_responseOf, h, map_ofNat_responseOf])

/-- Settles O48: `parseDigest` is a left inverse of `format` (`parseDigest_format`). -/
theorem formatIsInvertible : Obligations.FormatIsInvertible := by
  unfold Obligations.FormatIsInvertible
  exact ⟨parseDigest_format, format_injective, responseOf_injective⟩

/-! ## The digest as bytes (R122) -/

theorem length_digestBytes (d : Words8) : (digestBytes d).length = 32 := by simp [digestBytes, Words8.toList]

theorem toNat_getD_digestBytes (d : Words8) (i : Fin 8) {k : Nat} (hk : k < 4) :
    ((digestBytes d).getD (4 * i.val + k) 0).toNat = (d.get i).toNat / 2 ^ (24 - 8 * k) % 256 := by
  have hbyte : (digestBytes d)[4 * i.val + k]? = some ((d.get i).extractLsb' (24 - 8 * k) 8) := by
    rw [digestBytes, getElem?_flatMap_of_length (by simp) hk, getElem?_toList]
    simp [hk]
  rw [List.getD_eq_getElem?_getD, hbyte, Option.getD_some]
  exact toNat_extractLsb' ..

/-- Byte `k` of word `i` is the pair of digits `2k` and `2k + 1` of that word. -/
theorem toNat_getD_digestBytes_eq_pair (d : Words8) (i : Fin 8) {k : Nat} (hk : k < 4) :
    ((digestBytes d).getD (4 * i.val + k) 0).toNat =
      16 * hexVal ((format d).getD (8 * i.val + 2 * k) '0') +
        hexVal ((format d).getD (8 * i.val + (2 * k + 1)) '0') := by
  have hhigh : (d.get i).toNat / 2 ^ (28 - 4 * (2 * k)) = (d.get i).toNat / 2 ^ (24 - 8 * k) / 16 := by
    rw [Nat.div_div_eq_div_mul, show 28 - 4 * (2 * k) = 24 - 8 * k + 4 by omega, Nat.pow_add]
  have hlow : 28 - 4 * (2 * k + 1) = 24 - 8 * k := by omega
  rw [toNat_getD_digestBytes d i hk, hexVal_getD_format d i (by omega), hexVal_getD_format d i (by omega), hhigh, hlow]
  omega

/-- Settles O49: byte `b` is byte `b % 4` of word `b / 4`, whose digits stand at `2b` and `2b + 1`
(`toNat_getD_digestBytes_eq_pair`). -/
theorem digestBytesAreCharacterPairs : Obligations.DigestBytesAreCharacterPairs := by
  unfold Obligations.DigestBytesAreCharacterPairs
  refine fun d => ⟨length_digestBytes d, fun b hb => ?_, fun i k hk => toNat_getD_digestBytes d i hk, ?_, ?_⟩
  · have hpair := toNat_getD_digestBytes_eq_pair d ⟨b / 4, by omega⟩ (k := b % 4) (by omega)
    rwa [show 4 * (b / 4) + b % 4 = b by omega, show 8 * (b / 4) + 2 * (b % 4) = 2 * b by omega,
      show 8 * (b / 4) + (2 * (b % 4) + 1) = 2 * b + 1 by omega] at hpair
  · have hword := d.w0.isLt
    calc ((digestBytes d).getD 0 0).toNat
        = d.w0.toNat / 2 ^ 24 % 256 := toNat_getD_digestBytes d 0 (k := 0) (by omega)
      _ = d.w0.toNat / 2 ^ 24 := Nat.mod_eq_of_lt (by omega)
  · calc ((digestBytes d).getD 31 0).toNat
        = d.w7.toNat / 2 ^ 0 % 256 := toNat_getD_digestBytes d 7 (k := 3) (by omega)
      _ = d.w7.toNat % 256 := by rw [Nat.pow_zero, Nat.div_one]

end Sys2Proof.Machine

/-! SUPPORT. The statements of 60_exceptions.md: the faults CompressNotFull and LengthOverflow, the faulted engine, the
order of the checks, and concurrent invocation. -/

namespace Sys2Proof.Machine

/-! ## CompressNotFull (R131) -/

/-- UPDATE can take the fault LengthOverflow only: BUFFER takes none (`buffer_frame`). -/
theorem absorb_noCompressFault (policy : LenOverflow) (data : List Byte) {s : State} (hs : s.status = .operational) :
    (absorb policy data s).NoCompressFault := by
  rcases absorb_cases policy data s with h | h <;> rw [h]
  · intro n
    simp
  · exact noCompressFault_of_operational (buffer_frame data (s := s.addLength data.length) hs).status

theorem exec_noCompressFault {i : Instr} {s t : State} (h : exec i s = .next t) : t.NoCompressFault := by
  obtain ⟨hs, ⟨-, rfl⟩ | ⟨data, -, rfl⟩ | ⟨-, rfl⟩⟩ := exec_cases h
  · exact noCompressFault_of_operational hs
  · exact absorb_noCompressFault _ data hs
  · exact noCompressFault_of_operational hs

theorem step_noCompressFault {s t : State} (h : s.NoCompressFault) (hstep : step s = .next t) : t.NoCompressFault := by
  obtain ⟨-, ⟨i, rest, -, hexec⟩ | ⟨-, -, rfl⟩ | ⟨op, -, rfl⟩ | ⟨-, rfl⟩⟩ := step_cases hstep
  · exact exec_noCompressFault hexec
  · exact h
  · exact h
  · exact h

/-- Settles O19: a command starts Operational, and the only fault it can take is LengthOverflow
(`absorb_noCompressFault`); the other steps leave the status. -/
theorem compressNotFullIsUnreachable : Obligations.CompressNotFullIsUnreachable := by
  unfold Obligations.CompressNotFullIsUnreachable
  exact ⟨fun s => compress_notFull, fun n => rfl, fun i s t _ => exec_noCompressFault, fun s t => step_noCompressFault⟩

/-! ## LengthOverflow (R133) -/

/-- Settles O5: the check decides between the fault and BUFFER (`absorb_fits`, `absorb_fault`, `absorb_wrap`), and
BUFFER keeps TOTAL_LEN and the status (`buffer_frame`). -/
theorem lengthOverflowIsCheckedFirst : Obligations.LengthOverflowIsCheckedFirst := by
  unfold Obligations.LengthOverflowIsCheckedFirst
  refine ⟨fun policy data s hs hfits => ?_, fun data s hs hover => ?_⟩
  · rw [absorb_fits policy (Nat.not_lt.mpr hfits)]
    exact (buffer_frame data (s := s.addLength data.length) hs).status
  · have hframe : BufferFrame (s.addLength data.length) (absorb .wrap data s) := by
      rw [absorb_wrap]
      exact buffer_frame data hs
    exact ⟨absorb_fault hover, rfl, absorb_wrap data s, hframe.toNat_totalLen, hframe.status, perform_operational hs _⟩

/-! ## The faulted engine (R132) -/

theorem exec_operational {s : State} (hs : s.status = .operational) (i : Instr) : ∃ t, exec i s = .next t := by
  cases i <;> exact ⟨_, perform_operational hs _⟩

theorem runCommands_cons_faulted {s : State} {r : Fault} (h : s.status = .faulted r) (i : Instr) (is : List Instr) :
    runCommands (i :: is) s = .fault r := by
  simp only [runCommands, exec_faulted h]

theorem refuse_sameEngine (s : State) (r : Refusal) : SameEngine s (s.refuse r) := ⟨rfl, rfl, rfl, rfl, rfl⟩

/-- A faulted engine can step to a refusal mark only. -/
theorem step_faulted_cases {s t : State} {r : Fault} (h : s.status = .faulted r) (hstep : step s = .next t) :
    ∃ mark, t = s.refuse mark := by
  obtain ⟨-, ⟨i, rest, -, hexec⟩ | ⟨-, hs, -⟩ | ⟨op, -, ht⟩ | ⟨-, ht⟩⟩ := step_cases hstep
  · rw [exec_faulted (s := s.consume rest) h] at hexec
    cases hexec
  · rw [h] at hs
    cases hs
  · exact ⟨_, ht⟩
  · exact ⟨_, ht⟩

/-- Settles O20: every command is performed under the status, and a step of a faulted engine sets a refusal mark at most
(`step_faulted_cases`). -/
theorem faultedEngineHasNoStep : Obligations.FaultedEngineHasNoStep := by
  unfold Obligations.FaultedEngineHasNoStep
  refine ⟨fun s r h => ⟨exec_faulted h, runCommands_cons_faulted h, fun t hstep => ?_, rfl⟩,
    fun i s hs => exec_operational hs i⟩
  obtain ⟨mark, rfl⟩ := step_faulted_cases h hstep
  exact ⟨refuse_sameEngine s mark, rfl⟩

/-! ## Events at the interface of one engine (R134, R137) -/

namespace Session

variable {x : Session} {c : Nat} {p : Port} {i : Instr} {rest : List Byte}

theorem accept_marked {r : Refusal} (h : x.engine.refusal = some r) (e : Event) : x.accept e = .refused r := by
  simp only [accept, h]

theorem accept_issue (h : x.engine.refusal = none) (c : Nat) : x.accept (.issue c) = .next (x.issue c) := by
  simp only [accept, h]

theorem issue_reserved {op : Byte} (hp : x.ports[c]? = some p) (hd : decode p.stream = .reserved op) :
    x.issue c = x.refuse (.reservedOpcode op p.offset) := by
  simp only [issue, hp, hd]

theorem issue_incomplete (hp : x.ports[c]? = some p) (hd : decode p.stream = .incomplete) :
    x.issue c = x.refuse (.incompleteCommand p.offset) := by
  simp only [issue, hp, hd]

theorem issue_concurrent {j : Issued} (hj : x.inProgress = some j) (hp : x.ports[c]? = some p)
    (hd : decode p.stream = .command i rest) : x.issue c = x.refuse .concurrentInvocation := by
  simp only [issue, hp, hd, hj]

theorem issue_command (hj : x.inProgress = none) (hp : x.ports[c]? = some p)
    (hd : decode p.stream = .command i rest) :
    x.issue c = { x with ports := x.ports.set c (p.consume rest), inProgress := some ⟨c, i⟩ } := by
  simp only [issue, hp, hd, hj]

theorem accept_complete {j : Issued} {t : State} (hr : x.engine.refusal = none) (hj : x.inProgress = some j)
    (hexec : exec j.command x.engine = .next t) :
    x.accept .complete = .next { x with engine := t, inProgress := none } := by
  simp only [accept, hr, complete, hj, hexec]

end Session

/-- Settles O22: `step` and `Session.issue` decode before they look at anything else, an issue looks for a command in
progress and not at the status, and `perform` looks at the status before UPDATE checks the length. -/
theorem checksComeInOrder : Obligations.ChecksComeInOrder := by
  unfold Obligations.ChecksComeInOrder
  refine ⟨fun s r op _ => step_reserved, fun s r _ => step_incomplete, fun x c p op hr hp hd => ?_,
    fun x c p hr hp hd => ?_, fun x r j c p i rest _ hr hj hp hd => ?_, fun s r data h _ => exec_faulted h _,
    fun s data _ hover => ?_⟩
  · rw [Session.accept_issue hr, Session.issue_reserved hp hd]
    rfl
  · rw [Session.accept_issue hr, Session.issue_incomplete hp hd]
    rfl
  · rw [Session.accept_issue hr, Session.issue_concurrent hj hp hd]
    rfl
  · rw [absorb_fault hover]
    exact ⟨rfl, rfl, rfl, rfl, rfl⟩

/-- Settles O23: an issue holds the command in progress and its completion is `exec` (`Session.accept_complete`); a
second issue sets the mark, with which every event behind it answers. -/
theorem concurrentInvocationIsRefused : Obligations.ConcurrentInvocationIsRefused := by
  unfold Obligations.ConcurrentInvocationIsRefused
  refine ⟨fun s t ports c p i rest hr hp hd hexec => ⟨_, rfl, ?_, ?_⟩, fun s ports j c p i rest hr hp hd =>
    ⟨s.refuse .concurrentInvocation, ?_, refuse_sameEngine s _, rfl, Session.accept_marked rfl⟩⟩
  · rw [Session.accept_issue hr, Session.issue_command rfl hp hd]
    rfl
  · exact Session.accept_complete hr rfl hexec
  · rw [Session.accept_issue hr, Session.issue_concurrent rfl hp hd]
    rfl

end Sys2Proof.Machine

/-! SUPPORT. The statements of 70_reset_and_hazards.md: what power-on leaves, and the waiting engine. -/

namespace Sys2Proof.Machine

/-! ## Power-on (R150) -/

theorem powerOn_phase (s : State) : s.powerOn.phase = some .empty := phase_eq_empty rfl

/-- `State.reset` is the result of a power-on, so what holds of every power-on holds of it. -/
theorem reset_powerOn : State.reset.powerOn = State.reset := rfl

/-- After reset no command is presented yet, so the engine waits (60_exceptions.md R145). -/
theorem step_reset : step State.reset = .next State.reset := step_nothing rfl rfl rfl

/-- Settles O1: power-on loads the initial state (`powerOn_initial`) and sets Operational; reset is itself such a state
(`reset_powerOn`), with an empty stream (`step_reset`). -/
theorem powerOnGivesInitialOperational : Obligations.PowerOnGivesInitialOperational := by
  unfold Obligations.PowerOnGivesInitialOperational
  have hpower (s : State) : s.powerOn.Initial ∧ s.powerOn.status = .operational ∧ s.powerOn.phase = some .empty :=
    ⟨powerOn_initial s, State.powerOn_status s, powerOn_phase s⟩
  obtain ⟨hinitial, hstatus, hphase⟩ := reset_powerOn ▸ hpower State.reset
  exact ⟨⟨hinitial, hstatus, hphase, step_reset⟩, hpower⟩

end Sys2Proof.Machine
